-- ==== Sys2Proof/Word.lean ====
section
/-!
DEFINITION. The word types of the core (spec/00_scope.md R7, R9, R10): every value is unsigned; bit 0 is the least
significant bit.
-/
namespace Sys2Proof

/-- A memory cell, general register or timer: 8 bits (R20, R26, R27, R50). -/
abbrev Byte := BitVec 8

/-- An instruction word, `I`, `PC` or a stack entry: 16 bits (R22, R23, R25, R70). -/
abbrev Word := BitVec 16

/-- One of the four nibbles N1 N2 N3 N4 of an instruction word (R9). -/
abbrev Nibble := BitVec 4

/-- The 12-bit address field NNN (R72). -/
abbrev Addr12 := BitVec 12

/-- A register number or key index, 0 to 15 (R20, R29). -/
abbrev Reg := Fin 16

/-- VF, the flag register (R21). -/
abbrev Reg.vf : Reg := 15

/-- V0, the register BNNN reads (R103). -/
abbrev Reg.v0 : Reg := 0

end Sys2Proof
end

