-- ==== Sys2Proof/Syntax.lean ====
section
/-!
DEFINITION. The instruction set: one constructor per row of spec/opcode_table.json, in the table's order
(spec/30_encoding.md R74). A constructor's fields are the fields of its format (R71, R72), the unused Y of 8XY6 and 8XYE
among them (R77), so an instruction determines its word.
-/
namespace Sys2Proof

/-- The 34 instructions (R3, R74). -/
inductive Instr where
  /-- 00E0: clear the display. -/
  | cls
  /-- 00EE: return from a subroutine. -/
  | ret
  /-- 1NNN: jump. -/
  | jp (nnn : Addr12)
  /-- 2NNN: call a subroutine. -/
  | call (nnn : Addr12)
  /-- 3XNN: skip if VX = NN. -/
  | seImm (x : Reg) (nn : Byte)
  /-- 4XNN: skip if VX differs from NN. -/
  | sneImm (x : Reg) (nn : Byte)
  /-- 5XY0: skip if VX = VY. -/
  | seReg (x y : Reg)
  /-- 6XNN: load an immediate. -/
  | ldImm (x : Reg) (nn : Byte)
  /-- 7XNN: add an immediate, no flag. -/
  | addImm (x : Reg) (nn : Byte)
  /-- 8XY0: copy VY to VX. -/
  | ldReg (x y : Reg)
  /-- 8XY1: bitwise OR. -/
  | orReg (x y : Reg)
  /-- 8XY2: bitwise AND. -/
  | andReg (x y : Reg)
  /-- 8XY3: bitwise exclusive OR. -/
  | xorReg (x y : Reg)
  /-- 8XY4: add, VF = carry. -/
  | addReg (x y : Reg)
  /-- 8XY5: subtract VY from VX, VF = no borrow. -/
  | subReg (x y : Reg)
  /-- 8XY6: shift VX right; Y is not used. -/
  | shr (x y : Reg)
  /-- 8XY7: subtract VX from VY, VF = no borrow. -/
  | subnReg (x y : Reg)
  /-- 8XYE: shift VX left; Y is not used. -/
  | shl (x y : Reg)
  /-- 9XY0: skip if VX differs from VY. -/
  | sneReg (x y : Reg)
  /-- ANNN: load I. -/
  | ldI (nnn : Addr12)
  /-- BNNN: jump to V0 + NNN. -/
  | jpV0 (nnn : Addr12)
  /-- CXNN: masked random byte. -/
  | rnd (x : Reg) (nn : Byte)
  /-- DXYN: draw an N-row sprite. -/
  | drw (x y n : Fin 16)
  /-- EX9E: skip if the key VX is pressed. -/
  | skp (x : Reg)
  /-- EXA1: skip if the key VX is not pressed. -/
  | sknp (x : Reg)
  /-- FX07: read the delay timer. -/
  | ldVxDt (x : Reg)
  /-- FX15: set the delay timer. -/
  | ldDtVx (x : Reg)
  /-- FX18: set the sound timer. -/
  | ldStVx (x : Reg)
  /-- FX1E: add VX to I. -/
  | addI (x : Reg)
  /-- FX29: point I at glyph VX. -/
  | ldF (x : Reg)
  /-- FX33: store VX as three decimal digits. -/
  | ldB (x : Reg)
  /-- FX55: store V0 to VX. -/
  | storeRegs (x : Reg)
  /-- FX65: load V0 to VX. -/
  | loadRegs (x : Reg)
  /-- FX0A: wait for a key. -/
  | waitKey (x : Reg)
deriving DecidableEq, Repr

/-- Why bytes do not decode. -/
inductive DecodeReject where
  /-- The word matches no row of the opcode map (R78). The step turns it into the UnknownOpcode fault. -/
  | unknownOpcode (op : Word)
  /-- Fewer than the two bytes of an instruction word (R70). No step meets it: a fetch reads two bytes. -/
  | tooFewBytes
deriving DecidableEq, Repr

end Sys2Proof
end

