-- ==== Sys2Proof/WellFormed.lean ====
section
/-!
DEFINITION. Which 16-bit words are instructions. Every value of `Instr` is well formed by its field types (R72 gives
each field all the values of its width), so what can be ill formed is a WORD. Two independent readings of the spec stand
here: the (mask, match) rows of R74, and the list of unknown words of R78; the obligations say that they and the decoder
agree.
-/
namespace Sys2Proof

/-- One row of the opcode map: `op` matches when `op & mask = pattern` (R73). -/
structure OpcodeRow where
  mask : Word
  pattern : Word
deriving DecidableEq, Repr

/-- An instruction word matches a row (R73). -/
def OpcodeRow.matches (r : OpcodeRow) (op : Word) : Bool := op &&& r.mask == r.pattern

/-- The complete opcode map, in the order of R74. -/
def opcodeMap : List OpcodeRow :=
  [⟨0xFFFF, 0x00E0⟩, ⟨0xFFFF, 0x00EE⟩, ⟨0xF000, 0x1000⟩, ⟨0xF000, 0x2000⟩,
   ⟨0xF000, 0x3000⟩, ⟨0xF000, 0x4000⟩, ⟨0xF00F, 0x5000⟩, ⟨0xF000, 0x6000⟩,
   ⟨0xF000, 0x7000⟩] ++
  [⟨0xF00F, 0x8000⟩, ⟨0xF00F, 0x8001⟩, ⟨0xF00F, 0x8002⟩, ⟨0xF00F, 0x8003⟩,
   ⟨0xF00F, 0x8004⟩, ⟨0xF00F, 0x8005⟩, ⟨0xF00F, 0x8006⟩, ⟨0xF00F, 0x8007⟩,
   ⟨0xF00F, 0x800E⟩] ++
  [⟨0xF00F, 0x9000⟩, ⟨0xF000, 0xA000⟩, ⟨0xF000, 0xB000⟩, ⟨0xF000, 0xC000⟩,
   ⟨0xF000, 0xD000⟩, ⟨0xF0FF, 0xE09E⟩, ⟨0xF0FF, 0xE0A1⟩] ++
  [⟨0xF0FF, 0xF007⟩, ⟨0xF0FF, 0xF015⟩, ⟨0xF0FF, 0xF018⟩, ⟨0xF0FF, 0xF01E⟩,
   ⟨0xF0FF, 0xF029⟩, ⟨0xF0FF, 0xF033⟩, ⟨0xF0FF, 0xF055⟩, ⟨0xF0FF, 0xF065⟩,
   ⟨0xF0FF, 0xF00A⟩]

/-- The row of R74 an instruction belongs to, as its index in `opcodeMap`. -/
def Instr.row : Instr → Fin 34
  | .cls => 0 | .ret => 1 | .jp _ => 2 | .call _ => 3 | .seImm _ _ => 4 | .sneImm _ _ => 5
  | .seReg _ _ => 6 | .ldImm _ _ => 7 | .addImm _ _ => 8 | .ldReg _ _ => 9 | .orReg _ _ => 10
  | .andReg _ _ => 11 | .xorReg _ _ => 12 | .addReg _ _ => 13 | .subReg _ _ => 14 | .shr _ _ => 15
  | .subnReg _ _ => 16 | .shl _ _ => 17 | .sneReg _ _ => 18 | .ldI _ => 19 | .jpV0 _ => 20
  | .rnd _ _ => 21 | .drw _ _ _ => 22 | .skp _ => 23 | .sknp _ => 24 | .ldVxDt _ => 25
  | .ldDtVx _ => 26 | .ldStVx _ => 27 | .addI _ => 28 | .ldF _ => 29 | .ldB _ => 30
  | .storeRegs _ => 31 | .loadRegs _ => 32 | .waitKey _ => 33

/-- A word is well formed when some row of R74 matches it. -/
def wellFormedWord (op : Word) : Bool := opcodeMap.any (·.matches op)

/-- The unknown words as R78 lists them, each case by the digits of the word. -/
def unknownWord (op : Word) : Bool :=
  let w := op.toNat
  let n1 := w / 4096
  let n4 := w % 16
  let low := w % 256
  if n1 = 0 then !(w == 0x00E0 || w == 0x00EE)
  else if n1 = 5 ∨ n1 = 9 then n4 != 0
  else if n1 = 8 then [8, 9, 0xA, 0xB, 0xC, 0xD, 0xF].contains n4
  else if n1 = 0xE then !([0x9E, 0xA1].contains low)
  else if n1 = 0xF then !([0x07, 0x0A, 0x15, 0x18, 0x1E, 0x29, 0x33, 0x55, 0x65].contains low)
  else false

end Sys2Proof
end

