-- ==== Sys2Proof/Decode.lean ====
section
/-!
DEFINITION. From words to instructions and back: the fields of an instruction word (spec/30_encoding.md R70 to R72), the
decoder (R73, R75, R78), and the encoder, written from the same formats (R71).
-/
namespace Sys2Proof

/-! ### Fields -/

/-- N1, the major opcode: op[15:12] (R9, R70). -/
def fieldN1 (op : Word) : Nibble := op.extractLsb' 12 4

/-- X = op[11:8] (R72). -/
def fieldX (op : Word) : Reg := (op.extractLsb' 8 4).toFin

/-- Y = op[7:4] (R72). -/
def fieldY (op : Word) : Reg := (op.extractLsb' 4 4).toFin

/-- N = op[3:0] (R72); the literal function code of the other XYN words (R71). -/
def fieldN (op : Word) : Nibble := op.extractLsb' 0 4

/-- NN = op[7:0] (R72). -/
def fieldNN (op : Word) : Byte := op.extractLsb' 0 8

/-- NNN = op[11:0] (R72). -/
def fieldNNN (op : Word) : Addr12 := op.extractLsb' 0 12

/-! ### The decoder, by major opcode (R75) -/

/-- The 8XYn words: n selects the operation (R75). -/
def decode8 (x y : Reg) (n : Nibble) : Option Instr :=
  match n.toNat with
  | 0x0 => some (.ldReg x y)
  | 0x1 => some (.orReg x y)
  | 0x2 => some (.andReg x y)
  | 0x3 => some (.xorReg x y)
  | 0x4 => some (.addReg x y)
  | 0x5 => some (.subReg x y)
  | 0x6 => some (.shr x y)
  | 0x7 => some (.subnReg x y)
  | 0xE => some (.shl x y)
  | _ => none

/-- The EXkk words: the low byte must be 0x9E or 0xA1 (R75). -/
def decodeE (x : Reg) (kk : Byte) : Option Instr :=
  if kk = 0x9E then some (.skp x) else if kk = 0xA1 then some (.sknp x) else none

/-- The FXkk words: the low byte selects the operation (R75). -/
def decodeF (x : Reg) (kk : Byte) : Option Instr :=
  if kk = 0x07 then some (.ldVxDt x)
  else if kk = 0x0A then some (.waitKey x)
  else if kk = 0x15 then some (.ldDtVx x)
  else if kk = 0x18 then some (.ldStVx x)
  else if kk = 0x1E then some (.addI x)
  else if kk = 0x29 then some (.ldF x)
  else if kk = 0x33 then some (.ldB x)
  else if kk = 0x55 then some (.storeRegs x)
  else if kk = 0x65 then some (.loadRegs x)
  else none

/-- Decoding: a total function from the word to one of the 34 instructions, or `none` for an unknown word
(R73, R75, R78). -/
def decode (op : Word) : Option Instr :=
  let x := fieldX op
  let y := fieldY op
  match (fieldN1 op).toNat with
  | 0x0 => if op = 0x00E0 then some .cls else if op = 0x00EE then some .ret else none
  | 0x1 => some (.jp (fieldNNN op))
  | 0x2 => some (.call (fieldNNN op))
  | 0x3 => some (.seImm x (fieldNN op))
  | 0x4 => some (.sneImm x (fieldNN op))
  | 0x5 => if fieldN op = 0 then some (.seReg x y) else none
  | 0x6 => some (.ldImm x (fieldNN op))
  | 0x7 => some (.addImm x (fieldNN op))
  | 0x8 => decode8 x y (fieldN op)
  | 0x9 => if fieldN op = 0 then some (.sneReg x y) else none
  | 0xA => some (.ldI (fieldNNN op))
  | 0xB => some (.jpV0 (fieldNNN op))
  | 0xC => some (.rnd x (fieldNN op))
  | 0xD => some (.drw x y (fieldN op).toFin)
  | 0xE => decodeE x (fieldNN op)
  | _ => decodeF x (fieldNN op)

/-- The word two fetched bytes make: the byte at the lower address is the high byte (spec/20_memory.md R53). -/
def wordOfBytes (high low : Byte) : Word := high ++ low

/-- The high byte of a word, stored at the lower address (R53). -/
def highByte (op : Word) : Byte := op.extractLsb' 8 8

/-- The low byte of a word, stored at the higher address (R53). -/
def lowByte (op : Word) : Byte := op.extractLsb' 0 8

/-- Decoding of a byte stream: the first instruction and the bytes after it, or the reason there is none. -/
def decodeBytes : List Byte → Except DecodeReject (Instr × List Byte)
  | high :: low :: rest =>
    match decode (wordOfBytes high low) with
    | some i => .ok (i, rest)
    | none => .error (.unknownOpcode (wordOfBytes high low))
  | _ => .error .tooFewBytes

/-- The instruction the decoder reads from a word `w` of `nbits` bits, numbered as spec/opcode_table.json numbers them
(bit 0 is the least significant bit of the one 16-bit word); bits at and above `nbits` are 0. The bytes are laid out as
memory holds them (R53) and given to `decodeBytes`. -/
def decodeTableWord (nbits w : Nat) : Option Instr :=
  let op : Word := BitVec.ofNat 16 (w % 2 ^ nbits)
  match decodeBytes [highByte op, lowByte op] with
  | .ok (i, _) => some i
  | .error _ => none

/-! ### The encoder, by format (R71) -/

/-- Format NNN: major opcode and address. -/
def wordNNN (n1 : Nibble) (nnn : Addr12) : Word := n1 ++ nnn

/-- Formats XNN and XFF: major opcode, X, and the low byte (an immediate or a literal function code). -/
def wordXNN (n1 : Nibble) (x : Reg) (nn : Byte) : Word := n1 ++ (BitVec.ofFin x : Nibble) ++ nn

/-- Format XYN: major opcode, X, Y and the last nibble (N or a literal function code). -/
def wordXYN (n1 : Nibble) (x y : Reg) (n : Nibble) : Word :=
  n1 ++ (BitVec.ofFin x : Nibble) ++ (BitVec.ofFin y : Nibble) ++ n

/-- The word of an instruction (R71, R74). -/
def encode : Instr → Word
  | .cls => 0x00E0
  | .ret => 0x00EE
  | .jp nnn => wordNNN 0x1 nnn
  | .call nnn => wordNNN 0x2 nnn
  | .seImm x nn => wordXNN 0x3 x nn
  | .sneImm x nn => wordXNN 0x4 x nn
  | .seReg x y => wordXYN 0x5 x y 0x0
  | .ldImm x nn => wordXNN 0x6 x nn
  | .addImm x nn => wordXNN 0x7 x nn
  | .ldReg x y => wordXYN 0x8 x y 0x0
  | .orReg x y => wordXYN 0x8 x y 0x1
  | .andReg x y => wordXYN 0x8 x y 0x2
  | .xorReg x y => wordXYN 0x8 x y 0x3
  | .addReg x y => wordXYN 0x8 x y 0x4
  | .subReg x y => wordXYN 0x8 x y 0x5
  | .shr x y => wordXYN 0x8 x y 0x6
  | .subnReg x y => wordXYN 0x8 x y 0x7
  | .shl x y => wordXYN 0x8 x y 0xE
  | .sneReg x y => wordXYN 0x9 x y 0x0
  | .ldI nnn => wordNNN 0xA nnn
  | .jpV0 nnn => wordNNN 0xB nnn
  | .rnd x nn => wordXNN 0xC x nn
  | .drw x y n => wordXYN 0xD x y (BitVec.ofFin n)
  | .skp x => wordXNN 0xE x 0x9E
  | .sknp x => wordXNN 0xE x 0xA1
  | .ldVxDt x => wordXNN 0xF x 0x07
  | .ldDtVx x => wordXNN 0xF x 0x15
  | .ldStVx x => wordXNN 0xF x 0x18
  | .addI x => wordXNN 0xF x 0x1E
  | .ldF x => wordXNN 0xF x 0x29
  | .ldB x => wordXNN 0xF x 0x33
  | .storeRegs x => wordXNN 0xF x 0x55
  | .loadRegs x => wordXNN 0xF x 0x65
  | .waitKey x => wordXNN 0xF x 0x0A

end Sys2Proof
end

