-- ==== Sys2Proof/Config.lean ====
section
/-!
DEFINITION. What is fixed for the machine (spec/00_scope.md R7) and the free values the spec leaves open (R8):
`rnd` and `KeyPick` have no body, so a claim about them holds for every value they could have.
-/
namespace Sys2Proof

/-- MEM_SIZE: addresses 0x000 to 0xFFF exist (R7, R50). -/
def Config.memSize : Nat := 4096

/-- GLYPH_COUNT: the glyph set is 80 bytes at 0x000 (R7, R243). -/
def Config.glyphBytes : Nat := 80

/-- PROG_BASE: program bytes are loaded from 0x200 (R7). -/
def Config.progBase : Nat := 0x200

/-- PROG_MAX: the longest program that loads, 3584 bytes (R7, R244). -/
def Config.progMax : Nat := 3584

/-- RESET_PC: PC after reset (R7, R37). -/
def Config.resetPc : Word := 0x200

/-- GLYPHS, the 80 glyph bytes, at the default the spec lists in R243, which the spec itself takes from general
knowledge. PRESUMED, unsafe: log entry 2. No obligation rests on these values. -/
def Config.glyphs : List Byte :=
  [0xF0, 0x90, 0x90, 0x90, 0xF0,   -- 0
   0x20, 0x60, 0x20, 0x20, 0x70,   -- 1
   0xF0, 0x10, 0xF0, 0x80, 0xF0,   -- 2
   0xF0, 0x10, 0xF0, 0x10, 0xF0] ++ -- 3
  [0x90, 0x90, 0xF0, 0x10, 0x10,   -- 4
   0xF0, 0x80, 0xF0, 0x10, 0xF0,   -- 5
   0xF0, 0x80, 0xF0, 0x90, 0xF0,   -- 6
   0xF0, 0x10, 0x20, 0x40, 0x40] ++ -- 7
  [0xF0, 0x90, 0xF0, 0x90, 0xF0,   -- 8
   0xF0, 0x90, 0xF0, 0x10, 0xF0,   -- 9
   0xF0, 0x90, 0xF0, 0x90, 0x90,   -- A
   0xE0, 0x90, 0xE0, 0x90, 0xE0] ++ -- B
  [0xF0, 0x80, 0x80, 0x80, 0xF0,   -- C
   0xE0, 0x90, 0x90, 0x90, 0xE0,   -- D
   0xF0, 0x80, 0xF0, 0x80, 0xF0,   -- E
   0xF0, 0x80, 0xF0, 0x80, 0x80]   -- F

/-- FREE VALUE. The random byte of CXNN: `Config.rnd n` is the n-th byte drawn, under no law (R160, R219,
spec/92_eei_decisions.md D10). Log entry 3, safe. -/
opaque Config.rnd : Nat → Byte

/-- FREE VALUE. The choice FX0A makes among several pressed keys: for each key vector, a number that
`pickKey` (Machine/Operands.lean) reduces to one of the pressed keys, so that every admissible `KeyPick` of the spec
is one value of this constant (R8, R164, spec/92_eei_decisions.md D8). Log entry 4, safe. -/
opaque Config.keyPick : Vector Bool 16 → Nat

end Sys2Proof
end

