-- ==== Sys2Proof/Machine/State.lean ====
section
/-!
DEFINITION. The state of the machine as plain data (spec/10_state.md), the fault kinds (spec/60_exceptions.md R200), the
outcome types of the host's interface, and the state after reset (R37).
-/
namespace Sys2Proof.Machine

/-- Which access an AddressOutOfRange fault was raised by (R200, R205). -/
inductive Access where
  /-- The fetch of an instruction word. -/
  | fetch
  /-- A data access of DXYN, FX33, FX55 or FX65. -/
  | data
deriving DecidableEq, Repr

/-- The five fault kinds of R200, each with the `info` it records. A fault is TAKEN as R204 says: it is latched in
`State.fault` by a next state, so no step answers `Host.Outcome.fault` with one of these (log entry 1, safe). -/
inductive Fault where
  /-- Code 1: raised by decode when the word matches no row; info is the word (R201). Safe: the spec's own fault. -/
  | unknownOpcode (op : Word)
  /-- Code 2: raised by 2NNN when SP = 16; info is SP (R202). Safe: the spec's own fault. -/
  | stackOverflow (sp : Fin 17)
  /-- Code 3: raised by 00EE when SP = 0; info is SP (R203). Safe: the spec's own fault. -/
  | stackUnderflow (sp : Fin 17)
  /-- Code 4: raised by a fetch above 0xFFE (info: pc0) and by DXYN, FX33, FX55, FX65 when they would access an address
  above 0xFFF (info: max(i0, 0x1000)) (R205, R56). Safe: the spec's own fault. -/
  | addressOutOfRange (access : Access) (address : Word)
  /-- Code 5: raised by EX9E and EXA1 when VX is above 0xF; info is the value of VX (R206). Safe: the spec's own
  fault. -/
  | keyIndexOutOfRange (value : Byte)
deriving DecidableEq, Repr

/-- The reasons `exec` has no meaning for an instruction. -/
inductive Refusal where
  /-- An instruction of the table that has no meaning yet, rejected by name. Safe. No arm raises it: all 34
  instructions have their meaning. -/
  | notModelled (mnemonic : String)
deriving DecidableEq, Repr

/-- The content of the fault latch FAULT (R31): kind and info (`cause`), the address of the instruction (`pc`), and its
word (`op`, absent for a fetch fault). -/
structure FaultRecord where
  cause : Fault
  pc : Word
  op : Option Word
deriving DecidableEq, Repr

/-- What `load` returns to the host (R212, R244). -/
inductive LoadResult where
  | ok
  /-- The program is longer than 3584 bytes (R245). -/
  | loadError
deriving DecidableEq, Repr

/-- Memory: the bytes that differ from their reset contents, as (address, byte) pairs (R32, R50). Its canonical form is
`Memory.wf` (Machine/Ops.lean). -/
abbrev Memory := List Host.Cell

/-- The display FB: pixel (x, y) stands at y * 64 + x (R28). -/
abbrev Display := Vector Bool 2048

/-- The keypad KEY: entry k is true when key k is pressed (R29). -/
abbrev Keys := Vector Bool 16

/-- Everything the spec gives the machine (R37), and one field of the model's own, `draws`. -/
structure State where
  /-- V0 to VF (R20). -/
  v : Vector Byte 16
  /-- The index register I (R22). -/
  i : Word
  /-- The program counter PC (R23). -/
  pc : Word
  /-- The stack pointer SP, 0 to 16 (R25). -/
  sp : Fin 17
  /-- The call stack STACK (R25). -/
  stack : Vector Word 16
  /-- The delay timer DT (R26). -/
  dt : Byte
  /-- The sound timer ST (R27). -/
  st : Byte
  /-- The display FB (R28). -/
  fb : Display
  /-- The keypad KEY (R29). -/
  key : Keys
  /-- The redraw flag RF (R30). -/
  rf : Bool
  /-- The fault latch FAULT (R31). -/
  fault : Option FaultRecord
  /-- The 4096 bytes MEM (R32). -/
  mem : Memory
  /-- The model's own: how many random bytes have been drawn; it numbers `Config.rnd`. Log entry 3. -/
  draws : Nat
deriving DecidableEq, Repr

/-- The state right after `reset()` (R37, R240). Memory lists nothing: every byte holds its reset content. -/
def State.reset : State where
  v := Vector.replicate 16 0
  i := 0
  pc := Config.resetPc
  sp := 0
  stack := Vector.replicate 16 0
  dt := 0
  st := 0
  fb := Vector.replicate 2048 false
  key := Vector.replicate 16 false
  rf := false
  fault := none
  mem := []
  draws := 0

end Sys2Proof.Machine
end

