-- ==== Sys2Proof/Machine/Flags.lean ====
section
/-!
DEFINITION. The values instructions write to VF (spec/10_state.md R21) and the 8-bit results beside them
(spec/41_alu.md R131): computed exactly on naturals or integers, then narrowed to 8 bits.
-/
namespace Sys2Proof.Machine

/-- A condition as a byte: 1 when true, 0 when false (R10). -/
def flagByte (b : Bool) : Byte := if b then 1 else 0

/-- 8XY4: the sum, reduced modulo 256 (R126, R131). 7XNN uses the same sum (R121). -/
def add8 (a b : Byte) : Byte := BitVec.ofNat 8 (a.toNat + b.toNat)

/-- 8XY4's flag: 1 when the exact sum is above 255 (R126). -/
def carryFlag (a b : Byte) : Byte := flagByte (decide (a.toNat + b.toNat > 255))

/-- 8XY5 and 8XY7: the difference, reduced modulo 256 (R127, R129, R131). -/
def sub8 (a b : Byte) : Byte := BitVec.ofInt 8 ((a.toNat : Int) - (b.toNat : Int))

/-- The inverted borrow of `a - b`: 1 when a >= b (R127, R129). -/
def noBorrowFlag (a b : Byte) : Byte := flagByte (decide (a.toNat ≥ b.toNat))

/-- 8XY6: logical shift right by one (R128). -/
def shr8 (a : Byte) : Byte := a >>> 1

/-- 8XYE: shift left by one, reduced modulo 256 (R130). -/
def shl8 (a : Byte) : Byte := BitVec.ofNat 8 (a.toNat * 2)

/-- The flag of 8XY6 and of 8XYE: bit 0 of the old value; for 8XYE too it is the LEAST significant bit (R128, R130). -/
def lowBitFlag (a : Byte) : Byte := a &&& 1

end Sys2Proof.Machine
end

