-- ==== Sys2Proof/Machine/Operands.lean ====
section
/-!
DEFINITION. Operand forms: zero extension of NNN (spec/30_encoding.md R72), the one addressing mode through I
(spec/42_index_memory.md R146) and its range check (spec/20_memory.md R56), key indices (spec/43_random_timer_key.md R161,
R164), decimal digits (R143), and sprite bits (spec/44_display.md R182).
-/
namespace Sys2Proof.Machine

/-- NNN zero-extended to 16 bits, as it is written to I or PC (R72). -/
def zextAddr (nnn : Addr12) : Word := nnn.setWidth 16

/-- A register value as a 16-bit number (R10: `zext_16`). -/
def zextByte (b : Byte) : Word := b.setWidth 16

/-- The address of the k-th byte an instruction moves: `i0 + k`, a natural-number sum with no wrap and no mask (R146). -/
def dataAddr (i0 : Word) (k : Nat) : Nat := i0.toNat + k

/-- All of the `n` bytes from `i0` on exist: none lies above 0xFFF; with `n = 0` nothing is accessed (R56, R181). -/
def rangeExists (i0 : Word) (n : Nat) : Bool := n == 0 || decide (dataAddr i0 (n - 1) ≤ 0xFFF)

/-- The first offending address of a data access that leaves memory: max(i0, 0x1000) (R56). -/
def firstBadAddr (i0 : Word) : Word := if i0.toNat < 0x1000 then 0x1000 else i0

/-- The key a register value names, if it names one: an index above 0xF names none (R161, R206). -/
def keyIndex (vx : Byte) : Option Reg := if h : vx.toNat < 16 then some ⟨vx.toNat, h⟩ else none

/-- The pressed keys, lowest index first (R164: "exists k in 0..15 with KEY[k] = 1"). -/
def pressedKeys (key : Keys) : List Reg := (List.finRange 16).filter (fun k => key[k.val])

/-- KeyPick: one of the pressed keys. The only one when one is pressed; else the free value of
`Config.keyPick` selects among them (R164, spec/92_eei_decisions.md D8). The result for an empty list is never used. -/
def pickKey (pressed : List Reg) (choice : Nat) : Reg :=
  match pressed with
  | [] => 0
  | [k] => k
  | ks => ks.getD (choice % ks.length) 0

/-- The decimal digits of a byte: hundreds, tens, ones (R143). -/
def decimalDigits (vx : Byte) : List Byte :=
  [BitVec.ofNat 8 (vx.toNat / 100), BitVec.ofNat 8 (vx.toNat / 10 % 10), BitVec.ofNat 8 (vx.toNat % 10)]

/-- Column `c` of a sprite row: bit 7 - c, the most significant bit leftmost (R182). -/
def spriteColumn (row : Byte) (c : Nat) : Bool := row.getLsbD (7 - c)

end Sys2Proof.Machine
end

