-- ==== Sys2Proof/Machine/Ops.lean ====
section
/-!
DEFINITION. The named operations over the state (spec/00_scope.md R11): memory, registers, control transfer, the stack,
the display's pixels, the timer tick, taking a fault, and the parts of a step that stand around `exec`
(spec/10_state.md R35).
-/
namespace Sys2Proof.Machine

/-! ### Memory (R50 to R58) -/

/-- What an address reads as when memory lists nothing for it: its content after reset, GLYPHS at 0x000 to 0x04F and 0
elsewhere (R37, R240). -/
def Memory.unlisted (a : Nat) : Byte := Config.glyphs.getD a 0

/-- The byte at address `a` (`MemRead(a, 1)`, R11). Its callers check that `a` exists. -/
def Memory.read (m : Memory) (a : Nat) : Byte := (m.lookup a).getD (Memory.unlisted a)

/-- Put a cell before the first cell of a higher address. -/
def Memory.insertCell (c : Host.Cell) : Memory → Memory
  | [] => [c]
  | d :: m => if c.1 < d.1 then c :: d :: m else d :: Memory.insertCell c m

/-- Store byte `b` at address `a` (`MemWrite(a, 1, b)`, R11); a byte equal to the reset content is not listed. Its
callers check that `a` exists. -/
def Memory.write (m : Memory) (a : Nat) (b : Byte) : Memory :=
  let rest := m.filter (fun c => c.1 != a)
  if b = Memory.unlisted a then rest else Memory.insertCell (a, b) rest

/-- Store bytes at ascending addresses from `a` on (R54). -/
def Memory.writeBytes (m : Memory) (a : Nat) : List Byte → Memory
  | [] => m
  | b :: bs => Memory.writeBytes (Memory.write m a b) (a + 1) bs

/-- The canonical form: addresses strictly rising, every one inside the address space, no byte equal to what the address
reads as unlisted. -/
abbrev Memory.wf (m : Memory) : Prop :=
  m.Pairwise (fun c d => c.1 < d.1) ∧ ∀ c ∈ m, c.1 < Config.memSize ∧ c.2 ≠ Memory.unlisted c.1

/-! ### Registers (R20) -/

/-- `V[r]` (R11). -/
def State.reg (s : State) (r : Reg) : Byte := s.v[r.val]

/-- `V[r] <- b` (R11). -/
def State.setReg (s : State) (r : Reg) (b : Byte) : State := { s with v := s.v.set r.val b }

/-- A flag-writing result: VF first, then VX, so that with X = 0xF the result is what VF keeps (R132). -/
def State.setFlagThenReg (s : State) (x : Reg) (flag result : Byte) : State :=
  (s.setReg Reg.vf flag).setReg x result

/-! ### Control transfer (R24) -/

/-- `pc <- pc0 + 2` (R24). -/
def State.advance (s : State) : State := { s with pc := s.pc + 2 }

/-- A conditional skip: `pc <- pc0 + 4` when the condition holds, else `pc0 + 2` (R108). -/
def State.skipIf (s : State) (cond : Bool) : State := { s with pc := s.pc + if cond then 4 else 2 }

/-- `pc <- target` (R11). -/
def State.jumpTo (s : State) (target : Word) : State := { s with pc := target }

/-! ### The call stack (R25) -/

/-- `STACK[j]` (R11). -/
def State.stackAt (s : State) (j : Fin 16) : Word := s.stack[j.val]

/-- `STACK[SP] <- w; SP <- SP + 1`; `none` when SP = 16 (R102). -/
def State.push (s : State) (w : Word) : Option State :=
  if h : s.sp.val < 16 then
    some { s with stack := s.stack.set s.sp.val w, sp := ⟨s.sp.val + 1, by omega⟩ }
  else none

/-- `SP <- SP - 1`, then `STACK[SP]`; the entry keeps its value; `none` when SP = 0 (R100, R25). -/
def State.pop (s : State) : Option (Word × State) :=
  if h : 0 < s.sp.val then
    some (s.stackAt ⟨s.sp.val - 1, by omega⟩, { s with sp := ⟨s.sp.val - 1, by omega⟩ })
  else none

/-! ### Pixels (R28) -/

/-- `FB[x, y]` (R11): flat index y * 64 + x. -/
def Display.pixel (d : Display) (x : Fin 64) (y : Fin 32) : Bool := d[y.val * 64 + x.val]

/-- `FB[x, y] <- FB[x, y] ^ 1` (R181). -/
def Display.flip (d : Display) (x : Fin 64) (y : Fin 32) : Display :=
  d.set (y.val * 64 + x.val) (!Display.pixel d x y)

/-- Every pixel 0 (R180). -/
def Display.clear : Display := Vector.replicate 2048 false

/-! ### Taking a fault (R204) -/

/-- Fault entry: FAULT <- (kind, pc0, op, info), and nothing else changes: PC stays, no register, byte, pixel, stack
entry or timer takes a new value. There is no return from a fault (R208): only the host's reset and load
(Machine/HostOps.lean) clear the latch. -/
def raise (cause : Fault) (op : Option Word) (s : State) : State :=
  { s with fault := some { cause := cause, pc := s.pc, op := op } }

/-- AddressOutOfRange of a data access through I, raised by the instruction `i` (R205, R56). -/
def raiseData (i : Instr) (s : State) : State :=
  raise (.addressOutOfRange .data (firstBadAddr s.i)) (some (encode i)) s

/-! ### The step around `exec` (R35, R36) -/

/-- A timer one tick later: down by 1, stopping at 0 (R36). -/
def tickDown (t : Byte) : Byte := if t = 0 then 0 else t - 1

/-- The timer tick (R36). -/
def State.tick (s : State) : State := { s with dt := tickDown s.dt, st := tickDown s.st }

/-- The word at PC, big-endian; `none` when either byte would lie above 0xFFF (R35, R53, R56). -/
def State.fetch (s : State) : Option Word :=
  if s.pc.toNat ≤ 0xFFE then some (wordOfBytes (s.mem.read s.pc.toNat) (s.mem.read (s.pc.toNat + 1))) else none

/-- A fetch above 0xFFE faults; info is pc0 and no word is recorded (R205, R31). -/
def fetchFault (s : State) : State := raise (.addressOutOfRange .fetch s.pc) none s

/-- A word that matches no row faults (R201). -/
def unknownFault (op : Word) (s : State) : State := raise (.unknownOpcode op) (some op) s

/-- The end of a step: the tick, unless the step faulted (R36). -/
def endStep (s : State) : State := if s.fault.isSome then s else s.tick

/-- The step's answer from `exec`'s answer: the end of the step on its next state. -/
def afterExec : Host.Outcome State Fault Refusal → Host.Outcome State Fault Refusal
  | .next s => .next (endStep s)
  | .fault r => .fault r
  | .refused r => .refused r

end Sys2Proof.Machine
end

