-- ==== Sys2Proof/Machine/Alu.lean ====
section
/-!
DEFINITION. Register load and the 8-bit ALU: 6XNN, 7XNN, 8XY0 to 8XY7, 8XYE (spec/41_alu.md). Operands are the values at
the start of the step (spec/00_scope.md R12); none of these instructions can fault.
-/
namespace Sys2Proof.Machine

/-- 6XNN LD (R120). -/
def execLdImm (x : Reg) (nn : Byte) (s : State) : Host.Outcome State Fault Refusal :=
  .next (s.setReg x nn).advance

/-- 7XNN ADD (R121): VF is not written as a flag. -/
def execAddImm (x : Reg) (nn : Byte) (s : State) : Host.Outcome State Fault Refusal :=
  .next (s.setReg x (add8 (s.reg x) nn)).advance

/-- 8XY0 LD (R122). -/
def execLdReg (x y : Reg) (s : State) : Host.Outcome State Fault Refusal :=
  .next (s.setReg x (s.reg y)).advance

/-- 8XY1 OR (R123): VF unchanged. -/
def execOrReg (x y : Reg) (s : State) : Host.Outcome State Fault Refusal :=
  .next (s.setReg x (s.reg x ||| s.reg y)).advance

/-- 8XY2 AND (R124): VF unchanged. -/
def execAndReg (x y : Reg) (s : State) : Host.Outcome State Fault Refusal :=
  .next (s.setReg x (s.reg x &&& s.reg y)).advance

/-- 8XY3 XOR (R125): VF unchanged. -/
def execXorReg (x y : Reg) (s : State) : Host.Outcome State Fault Refusal :=
  .next (s.setReg x (s.reg x ^^^ s.reg y)).advance

/-- 8XY4 ADD (R126): VF = carry, then VX = sum. -/
def execAddReg (x y : Reg) (s : State) : Host.Outcome State Fault Refusal :=
  .next (s.setFlagThenReg x (carryFlag (s.reg x) (s.reg y)) (add8 (s.reg x) (s.reg y))).advance

/-- 8XY5 SUB (R127): VF = no borrow, then VX = vx - vy. -/
def execSubReg (x y : Reg) (s : State) : Host.Outcome State Fault Refusal :=
  .next (s.setFlagThenReg x (noBorrowFlag (s.reg x) (s.reg y)) (sub8 (s.reg x) (s.reg y))).advance

/-- 8XY6 SHR (R128): VF = old bit 0, then VX = vx >> 1. Y takes part in nothing (R77). -/
def execShr (x _y : Reg) (s : State) : Host.Outcome State Fault Refusal :=
  .next (s.setFlagThenReg x (lowBitFlag (s.reg x)) (shr8 (s.reg x))).advance

/-- 8XY7 SUBN (R129): VF = no borrow, then VX = vy - vx. -/
def execSubnReg (x y : Reg) (s : State) : Host.Outcome State Fault Refusal :=
  .next (s.setFlagThenReg x (noBorrowFlag (s.reg y) (s.reg x)) (sub8 (s.reg y) (s.reg x))).advance

/-- 8XYE SHL (R130): VF = old bit 0 (not bit 7), then VX = vx << 1. Y takes part in nothing (R77). -/
def execShl (x _y : Reg) (s : State) : Host.Outcome State Fault Refusal :=
  .next (s.setFlagThenReg x (lowBitFlag (s.reg x)) (shl8 (s.reg x))).advance

end Sys2Proof.Machine
end

