-- ==== Sys2Proof/Machine/ControlFlow.lean ====
section
/-!
DEFINITION. Control transfer: 00EE, 1NNN, 2NNN, BNNN, 3XNN, 4XNN, 5XY0, 9XY0 (spec/40_control_flow.md). Each meaning is
the execute phase of R35; `step` adds the timer tick.
-/
namespace Sys2Proof.Machine

/-- 00EE RET (R100): the entry popped is the call's own address, and 2 steps over the call. StackUnderflow at SP = 0. -/
def execRet (s : State) : Host.Outcome State Fault Refusal :=
  match s.pop with
  | none => .next (raise (.stackUnderflow s.sp) (some (encode .ret)) s)
  | some (entry, t) => .next (t.jumpTo (entry + 2))

/-- 1NNN JP (R101). -/
def execJp (nnn : Addr12) (s : State) : Host.Outcome State Fault Refusal :=
  .next (s.jumpTo (zextAddr nnn))

/-- 2NNN CALL (R102): pushes pc0, the address of the call itself. StackOverflow at SP = 16. -/
def execCall (nnn : Addr12) (s : State) : Host.Outcome State Fault Refusal :=
  match s.push s.pc with
  | none => .next (raise (.stackOverflow s.sp) (some (encode (.call nnn))) s)
  | some t => .next (t.jumpTo (zextAddr nnn))

/-- BNNN JP V0 (R103): the sum is neither wrapped nor masked to 12 bits. -/
def execJpV0 (nnn : Addr12) (s : State) : Host.Outcome State Fault Refusal :=
  .next (s.jumpTo (zextByte (s.reg Reg.v0) + zextAddr nnn))

/-- 3XNN SE (R104). -/
def execSeImm (x : Reg) (nn : Byte) (s : State) : Host.Outcome State Fault Refusal :=
  .next (s.skipIf (s.reg x == nn))

/-- 4XNN SNE (R105). -/
def execSneImm (x : Reg) (nn : Byte) (s : State) : Host.Outcome State Fault Refusal :=
  .next (s.skipIf (s.reg x != nn))

/-- 5XY0 SE (R106). -/
def execSeReg (x y : Reg) (s : State) : Host.Outcome State Fault Refusal :=
  .next (s.skipIf (s.reg x == s.reg y))

/-- 9XY0 SNE (R107). -/
def execSneReg (x y : Reg) (s : State) : Host.Outcome State Fault Refusal :=
  .next (s.skipIf (s.reg x != s.reg y))

end Sys2Proof.Machine
end

