-- ==== Sys2Proof/Machine/Display.lean ====
section
/-!
DEFINITION. Display instructions and the sprite blit engine: 00E0, DXYN (spec/44_display.md). The blit is the loop of
R181; a pair (display, collision) goes through it.
-/
namespace Sys2Proof.Machine

/-- 00E0 CLS (R180): RF is raised whether or not a pixel changes. -/
def execCls (s : State) : Host.Outcome State Fault Refusal :=
  .next { s with fb := Display.clear, rf := true }.advance

/-- One sprite bit at column `c` of row `r`: a bit of 1 aimed at (vx + c, vy + r) flips that pixel and collides with a
pixel that was 1; off the canvas it is discarded (R181, R183). -/
def drawPixel (vx vy row : Byte) (r : Nat) (acc : Display × Bool) (c : Nat) : Display × Bool :=
  if spriteColumn row c then
    if h : vx.toNat + c < 64 ∧ vy.toNat + r < 32 then
      let px : Fin 64 := ⟨vx.toNat + c, h.1⟩
      let py : Fin 32 := ⟨vy.toNat + r, h.2⟩
      (Display.flip acc.1 px py, acc.2 || Display.pixel acc.1 px py)
    else acc
  else acc

/-- Sprite row `r`, the byte at i0 + r, leftmost pixel first (R181, R182). -/
def drawRow (mem : Memory) (i0 : Word) (vx vy : Byte) (acc : Display × Bool) (r : Nat) : Display × Bool :=
  (List.range 8).foldl (drawPixel vx vy (mem.read (dataAddr i0 r)) r) acc

/-- The blit of `n` rows, top row first, and whether any bit collided (R181). -/
def blit (mem : Memory) (i0 : Word) (vx vy : Byte) (n : Nat) (fb : Display) : Display × Bool :=
  (List.range n).foldl (drawRow mem i0 vx vy) (fb, false)

/-- The state after a draw that does not fault: the drawn display, VF = collision, RF raised, PC advanced (R181). VF is
written and RF raised also when N = 0. -/
def drawn (x y n : Fin 16) (s : State) : State :=
  let out := blit s.mem s.i (s.reg x) (s.reg y) n.val s.fb
  { s.setReg Reg.vf (flagByte out.2) with fb := out.1, rf := true }.advance

/-- DXYN DRW (R181): vx, vy and i0 are those of the start of the step; AddressOutOfRange when one of the N sprite bytes
lies above 0xFFF. -/
def execDrw (x y n : Fin 16) (s : State) : Host.Outcome State Fault Refusal :=
  if rangeExists s.i n.val then .next (drawn x y n s) else .next (raiseData (.drw x y n) s)

end Sys2Proof.Machine
end

