-- ==== Sys2Proof/Machine/IndexMemory.lean ====
section
/-!
DEFINITION. The index register, stores and loads: ANNN, FX1E, FX29, FX33, FX55, FX65 (spec/42_index_memory.md). The range
check covers the whole access before any byte moves (spec/20_memory.md R56), and I is never changed by an access (R146).
-/
namespace Sys2Proof.Machine

/-- ANNN LD I (R140). -/
def execLdI (nnn : Addr12) (s : State) : Host.Outcome State Fault Refusal :=
  .next { s with i := zextAddr nnn }.advance

/-- FX1E ADD I (R141): wraps at 65536, not at 4096; VF is not written. -/
def execAddI (x : Reg) (s : State) : Host.Outcome State Fault Refusal :=
  .next { s with i := s.i + zextByte (s.reg x) }.advance

/-- FX29 LD F (R142): all 8 bits of vx are used. -/
def execLdF (x : Reg) (s : State) : Host.Outcome State Fault Refusal :=
  .next { s with i := BitVec.ofNat 16 ((s.reg x).toNat * 5) }.advance

/-- FX33 LD B (R143): hundreds, tens and ones at I, I+1, I+2. -/
def execLdB (x : Reg) (s : State) : Host.Outcome State Fault Refusal :=
  if rangeExists s.i 3 then
    .next { s with mem := s.mem.writeBytes (dataAddr s.i 0) (decimalDigits (s.reg x)) }.advance
  else .next (raiseData (.ldB x) s)

/-- FX55 LD [I], VX (R144): V0 to VX at I to I+X. -/
def execStoreRegs (x : Reg) (s : State) : Host.Outcome State Fault Refusal :=
  if rangeExists s.i (x.val + 1) then
    .next { s with mem := s.mem.writeBytes (dataAddr s.i 0) (s.v.toList.take (x.val + 1)) }.advance
  else .next (raiseData (.storeRegs x) s)

/-- V0 to VX taken from memory at I to I+X, the registers above X as they are (R145). -/
def loadedRegs (x : Reg) (s : State) : Vector Byte 16 :=
  Vector.ofFn fun k => if k ≤ x then s.mem.read (dataAddr s.i k.val) else s.reg k

/-- FX65 LD VX, [I] (R145). -/
def execLoadRegs (x : Reg) (s : State) : Host.Outcome State Fault Refusal :=
  if rangeExists s.i (x.val + 1) then
    .next { s with v := loadedRegs x s }.advance
  else .next (raiseData (.loadRegs x) s)

end Sys2Proof.Machine
end

