-- ==== Sys2Proof/Machine/RandomTimerKey.lean ====
section
/-!
DEFINITION. Random byte, keypad and timer instructions: CXNN, EX9E, EXA1, FX07, FX0A, FX15, FX18
(spec/43_random_timer_key.md). The timer tick that follows each of them is the step's (spec/10_state.md R36).
-/
namespace Sys2Proof.Machine

/-- VX <- rnd & NN for the draw `rnd` (R160). -/
def rndWith (rnd : Byte) (x : Reg) (nn : Byte) (s : State) : State := (s.setReg x (rnd &&& nn)).advance

/-- CXNN RND (R160): consumes the next free draw (log entry 3). -/
def execRnd (x : Reg) (nn : Byte) (s : State) : Host.Outcome State Fault Refusal :=
  .next { rndWith (Config.rnd s.draws) x nn s with draws := s.draws + 1 }

/-- EX9E SKP (R161): skip when KEY[vx] = 1; KeyIndexOutOfRange when vx is above 0xF. -/
def execSkp (x : Reg) (s : State) : Host.Outcome State Fault Refusal :=
  match keyIndex (s.reg x) with
  | none => .next (raise (.keyIndexOutOfRange (s.reg x)) (some (encode (.skp x))) s)
  | some k => .next (s.skipIf s.key[k.val])

/-- EXA1 SKNP (R162): skip when KEY[vx] = 0; KeyIndexOutOfRange when vx is above 0xF. -/
def execSknp (x : Reg) (s : State) : Host.Outcome State Fault Refusal :=
  match keyIndex (s.reg x) with
  | none => .next (raise (.keyIndexOutOfRange (s.reg x)) (some (encode (.sknp x))) s)
  | some k => .next (s.skipIf (!s.key[k.val]))

/-- FX07 LD VX, DT (R163): DT before this step's tick. -/
def execLdVxDt (x : Reg) (s : State) : Host.Outcome State Fault Refusal :=
  .next (s.setReg x s.dt).advance

/-- FX15 LD DT, VX (R165). -/
def execLdDtVx (x : Reg) (s : State) : Host.Outcome State Fault Refusal :=
  .next { s with dt := s.reg x }.advance

/-- FX18 LD ST, VX (R166). -/
def execLdStVx (x : Reg) (s : State) : Host.Outcome State Fault Refusal :=
  .next { s with st := s.reg x }.advance

/-- FX0A LD VX, K (R164): with a key pressed, its index and pc0 + 2; else nothing changes, so that the same instruction
is fetched again. Level-sensitive. Which key, when several are pressed, is free (log entry 4). -/
def execWaitKey (x : Reg) (s : State) : Host.Outcome State Fault Refusal :=
  if pressedKeys s.key = [] then .next s
  else
    .next (s.setReg x (BitVec.ofNat 8 (pickKey (pressedKeys s.key) (Config.keyPick s.key)).val)).advance

end Sys2Proof.Machine
end

