-- ==== Sys2Proof/Machine/Step.lean ====
section
/-!
DEFINITION. `step`, the one operation that executes an instruction (spec/10_state.md R35), and the placing of an
instruction where the next step fetches it.
-/
namespace Sys2Proof.Machine

/-- One step (R35): nothing while FAULT is set (R204); fetch, decode, execute, in this order of faults (R207); then the
timer tick unless the step faulted (R36). The failure a step returns is the latch of its next state (log entry 1). -/
def step (s : State) : Host.Outcome State Fault Refusal :=
  if s.fault.isSome then .next s
  else
    match s.fetch with
    | none => .next (fetchFault s)
    | some op =>
      match decode op with
      | none => .next (unknownFault op s)
      | some i => afterExec (exec i s)

/-- `s` with the instruction word `w` of `nbits` bits (numbered as spec/opcode_table.json numbers them; bits at and above
`nbits` are 0) stored at PC and PC + 1, high byte first (R53), and the fault latch clear, since a machine with FAULT set
fetches nothing. It stands for the host's `load` (log entry 12). -/
def State.withFetchWord (s : State) (nbits w : Nat) : State :=
  let op : Word := BitVec.ofNat 16 (w % 2 ^ nbits)
  { s with mem := s.mem.writeBytes s.pc.toNat [highByte op, lowByte op], fault := none }

end Sys2Proof.Machine
end

