-- ==== Sys2Proof/Machine/HostOps.lean ====
section
/-!
DEFINITION. The host's side of the interface (spec/60_exceptions.md R216): every move the host has, each taken between
steps (R61), and the values it reads. The host has no other move (spec/93_implementation_defined.md U12).
-/
namespace Sys2Proof.Machine

/-- `reset()` in any state (R240, R241). The model's counter of draws runs on: the bytes drawn after a reset are under no
law relative to those before it (R160). -/
def hostReset (s : State) : State := { State.reset with draws := s.draws }

/-- `load(bytes)`: reset, then the bytes verbatim from 0x200 on; a program longer than 3584 bytes leaves the reset state
and returns LoadError (R244, R245). -/
def hostLoad (bytes : List Byte) (s : State) : State × LoadResult :=
  if bytes.length > Config.progMax then (hostReset s, .loadError)
  else ({ hostReset s with mem := (hostReset s).mem.writeBytes Config.progBase bytes }, .ok)

/-- `set_keys(k)`: all 16 entries at once (R217). -/
def hostSetKeys (keys : Keys) (s : State) : State := { s with key := keys }

/-- `clear_redraw()`: RF <- 0 (R218). -/
def hostClearRedraw (s : State) : State := { s with rf := false }

/-- `step(rnd)` as the host sees the state after it (R35). -/
def hostStep (s : State) : State :=
  match step s with
  | .next t => t
  | .fault _ => s
  | .refused _ => s

/-- `read_display()`: the 2048 pixel values (R218). -/
def hostReadDisplay (s : State) : Display := s.fb

/-- `read_redraw()`: the value of RF (R218). -/
def hostReadRedraw (s : State) : Bool := s.rf

/-- `read_fault()`: the value of FAULT, which is also the failure a step returns (R204, R216). -/
def hostReadFault (s : State) : Option FaultRecord := s.fault

/-- The number of a fault's kind (R200; the numbers are labels of the spec's own, its decision D12). -/
def hostFaultCode : Fault → Nat
  | .unknownOpcode _ => 1
  | .stackOverflow _ => 2
  | .stackUnderflow _ => 3
  | .addressOutOfRange _ _ => 4
  | .keyIndexOutOfRange _ => 5

/-- The moves of the host that can change the state (R216). -/
inductive HostMove where
  | reset
  | load (bytes : List Byte)
  | step
  | setKeys (keys : Keys)
  | clearRedraw
deriving DecidableEq, Repr

/-- The state after a move of the host (R216). -/
def hostMove (m : HostMove) (s : State) : State :=
  match m with
  | .reset => hostReset s
  | .load bytes => (hostLoad bytes s).1
  | .step => hostStep s
  | .setKeys keys => hostSetKeys keys s
  | .clearRedraw => hostClearRedraw s

end Sys2Proof.Machine
end

