-- ==== Sys2Proof/Safety.lean ====
section
/-!
DEFINITION. The terms claims are stated in: the parts of the state and which of them an execution leaves alone
(spec/00_scope.md R13), the fault each instruction may raise (spec/60_exceptions.md R200), the invariants of the machine,
and the canvas a sprite covers (spec/44_display.md R182, R183).
-/
namespace Sys2Proof.Machine

/-! ### Frames -/

/-- The parts of the state, each as small as an instruction can change: one register, one stack entry, one pixel, one
byte of memory, and the single registers. Together they are all that can be read of a state. -/
inductive Part where
  | reg (r : Reg)
  | i
  | pc
  | sp
  | stack (j : Fin 16)
  | dt
  | st
  | pixel (x : Fin 64) (y : Fin 32)
  | key (k : Reg)
  | rf
  | fault
  | byte (a : Nat)
  | draws
deriving DecidableEq, Repr

/-- Part `p` reads in `t` as it reads in `s`. -/
def Same (p : Part) (s t : State) : Prop :=
  match p with
  | .reg r => t.reg r = s.reg r
  | .i => t.i = s.i
  | .pc => t.pc = s.pc
  | .sp => t.sp = s.sp
  | .stack j => t.stackAt j = s.stackAt j
  | .dt => t.dt = s.dt
  | .st => t.st = s.st
  | .pixel x y => Display.pixel t.fb x y = Display.pixel s.fb x y
  | .key k => t.key[k.val] = s.key[k.val]
  | .rf => t.rf = s.rf
  | .fault => t.fault = s.fault
  | .byte a => Memory.read t.mem a = Memory.read s.mem a
  | .draws => t.draws = s.draws

/-- Every part that `changed` does not name reads in `t` as it reads in `s` (R13). -/
def FrameBut (changed : Part → Prop) (s t : State) : Prop := ∀ p, ¬ changed p → Same p s t

/-! ### Faults -/

/-- A data access of `n` bytes through I that leaves memory, as R56 and R200 say: the fault, with the first offending
address max(i0, 0x1000); `none` when every byte exists or there is none to move. -/
def dataFault (s : State) (n : Nat) : Option Fault :=
  if 1 ≤ n ∧ s.i.toNat + n - 1 > 0xFFF then
    some (.addressOutOfRange .data (BitVec.ofNat 16 (max s.i.toNat 0x1000)))
  else none

/-- A key index above 0xF, as R206 says. -/
def keyFault (s : State) (x : Reg) : Option Fault :=
  if (s.reg x).toNat > 0xF then some (.keyIndexOutOfRange (s.reg x)) else none

/-- The fault the execute phase of an instruction raises, by the table of R200; 26 of the instructions raise none. -/
def executeFault (i : Instr) (s : State) : Option Fault :=
  match i with
  | .call _ => if s.sp = 16 then some (.stackOverflow s.sp) else none
  | .ret => if s.sp = 0 then some (.stackUnderflow s.sp) else none
  | .drw _ _ n => dataFault s n.val
  | .ldB _ => dataFault s 3
  | .storeRegs x | .loadRegs x => dataFault s (x.val + 1)
  | .skp x | .sknp x => keyFault s x
  | .cls | .jp _ | .seImm _ _ | .sneImm _ _ | .seReg _ _ | .ldImm _ _ | .addImm _ _ | .ldReg _ _ => none
  | .orReg _ _ | .andReg _ _ | .xorReg _ _ | .addReg _ _ | .subReg _ _ | .shr _ _ | .subnReg _ _ => none
  | .shl _ _ | .sneReg _ _ | .ldI _ | .jpV0 _ | .rnd _ _ | .ldVxDt _ | .ldDtVx _ | .ldStVx _ => none
  | .addI _ | .ldF _ | .waitKey _ => none

/-- The fault record a step latches, in the order of R207: fetch, decode, execute. -/
def stepFault (s : State) : Option FaultRecord :=
  if s.pc.toNat > 0xFFE then some ⟨.addressOutOfRange .fetch s.pc, s.pc, none⟩
  else
    let op := wordOfBytes (Memory.read s.mem s.pc.toNat) (Memory.read s.mem (s.pc.toNat + 1))
    match decode op with
    | none => some ⟨.unknownOpcode op, s.pc, some op⟩
    | some i => (executeFault i s).map fun c => ⟨c, s.pc, some op⟩

/-! ### Invariants -/

/-- PC is at most 0x10FE, and every stack entry is the address of an instruction that was fetched, at most 0xFFE (the
bounds R24 derives). -/
abbrev State.Bounded (s : State) : Prop :=
  s.pc.toNat ≤ 0x10FE ∧ ∀ j : Fin 16, (s.stackAt j).toNat ≤ 0xFFE

/-- A fault record describes the state it is latched in: its pc is PC, its word is what a fetch at PC reads, and its info
is the value that raised it (R31, R200, R204). -/
def FaultRecord.Describes (f : FaultRecord) (s : State) : Prop :=
  f.pc = s.pc ∧ f.op = s.fetch ∧
    match f.cause with
    | .unknownOpcode op => f.op = some op ∧ decode op = none
    | .stackOverflow n => n = s.sp ∧ s.sp = 16
    | .stackUnderflow n => n = s.sp ∧ s.sp = 0
    | .addressOutOfRange .fetch a => a = s.pc ∧ s.pc.toNat > 0xFFE
    | .addressOutOfRange .data a => a.toNat = max s.i.toNat 0x1000
    | .keyIndexOutOfRange b => b.toNat > 0xF ∧ ∃ r, s.reg r = b

/-- Whatever fault is latched describes the state. -/
def State.FaultTruthful (s : State) : Prop := ∀ f, s.fault = some f → f.Describes s

/-- The invariant of the machine: canonical memory, bounded PC and stack entries, a truthful fault latch. -/
structure State.Inv (s : State) : Prop where
  memory : s.mem.wf
  bounded : s.Bounded
  latch : s.FaultTruthful

/-! ### The canvas -/

/-- The sprite bit aimed at canvas pixel (px, py) when `n` rows from `i0` are drawn with origin (vx, vy): bit
7 - (px - vx) of the byte at i0 + (py - vy), or no bit when the pixel is outside the sprite (R182). -/
def spriteAt (mem : Memory) (i0 : Word) (vx vy : Byte) (n : Nat) (px : Fin 64) (py : Fin 32) : Bool :=
  decide (vx.toNat ≤ px.val ∧ px.val < vx.toNat + 8 ∧ vy.toNat ≤ py.val ∧ py.val < vy.toNat + n) &&
    (Memory.read mem (i0.toNat + (py.val - vy.toNat))).getLsbD (7 - (px.val - vx.toNat))

end Sys2Proof.Machine
end

