-- ==== Sys2Proof/Certificates/Slice0/Obligations.lean ====
section
/-!
DEFINITION. The statements for the provers. Each docstring names the rules of spec/ it formalises. `FrameBut W s t` says
that every part of the state that `W` does not name reads in `t` as in `s`: registers, I, PC, SP, stack entries, timers,
pixels, keys, RF, FAULT, every byte of memory, and the model's counter of draws.
-/
section Statements

open Sys2Proof Sys2Proof.Machine

/-! ### Encoding -/

/-- A sanity check of the decoder on words written out from the spec (R74 and spec/95_test_vectors.md table 2.1). -/
def Obligations.SampleWordsDecode : Prop :=
  decode 0x00E0 = some .cls ∧ decode 0x1ABC = some (.jp 0xABC) ∧ decode 0x3A05 = some (.seImm 0xA 0x05) ∧
  decode 0x8124 = some (.addReg 1 2) ∧ decode 0x812E = some (.shl 1 2) ∧ decode 0xA2F0 = some (.ldI 0x2F0) ∧
  decode 0xD125 = some (.drw 1 2 5) ∧ decode 0xE19E = some (.skp 1) ∧ decode 0xF255 = some (.storeRegs 2) ∧
  decode 0x5001 = none ∧ decode 0x0000 = none ∧ decode 0x8128 = none ∧ decode 0xF1FF = none

/-- Decoding the word of any instruction gives it back, with every operand at every value (R71, R72, R73). Every value of
`Instr` is well formed by its field types. -/
def Obligations.DecodeOfEncode : Prop := ∀ i : Instr, decode (encode i) = some i

/-- A word that decodes is the word of the instruction it decodes to: no bit of it is dropped, the unused Y of 8XY6 and
8XYE included (R73, R77). So the word a fault records is the word fetched. -/
def Obligations.EncodeOfDecode : Prop := ∀ (op : Word) (i : Instr), decode op = some i → encode i = op

/-- The decoder, written by major opcode (R75), is the matching of (mask, match) rows of R73 and R74: a word that decodes
matches its instruction's row, a word decodes to nothing exactly when no row matches, and (the spec's own inference in
R73) at most one row matches a word. -/
def Obligations.DecodeFollowsOpcodeMap : Prop :=
  (∀ (op : Word) (i : Instr), decode op = some i → op &&& (opcodeMap[i.row.val]'(i.row.isLt)).mask =
    (opcodeMap[i.row.val]'(i.row.isLt)).pattern) ∧
  (∀ op : Word, decode op = none ↔ ∀ r ∈ opcodeMap, op &&& r.mask ≠ r.pattern) ∧
  (∀ (op : Word) (j k : Fin 34), op &&& (opcodeMap[j.val]'(j.isLt)).mask = (opcodeMap[j.val]'(j.isLt)).pattern →
    op &&& (opcodeMap[k.val]'(k.isLt)).mask = (opcodeMap[k.val]'(k.isLt)).pattern → j = k)

/-- The unknown words are exactly those R78 lists, and a step that fetches one faults with UnknownOpcode, recording the
word, and changes nothing else (R78, R201). -/
def Obligations.UnknownWordsFault : Prop :=
  (∀ op : Word, decode op = none ↔ unknownWord op = true) ∧
  (∀ (s : State) (op : Word), s.fault = none → s.fetch = some op → unknownWord op = true →
    step s = .next { s with fault := some ⟨.unknownOpcode op, s.pc, some op⟩ })

/-! ### The step -/

/-- The step (R35): nothing while FAULT is set; a fetch above 0xFFE faults; the word at PC and PC + 1, high byte first, is
decoded, and an unknown word faults; a decoded instruction is executed, and unless it faulted both timers are ticked. -/
def Obligations.StepRunsDecodedInstruction : Prop :=
  ∀ s : State,
    (s.fault ≠ none → step s = .next s) ∧
    (s.fault = none → 0xFFE < s.pc.toNat →
      step s = .next { s with fault := some ⟨.addressOutOfRange .fetch s.pc, s.pc, none⟩ }) ∧
    (s.fault = none → s.pc.toNat ≤ 0xFFE →
      ∀ op : Word, op = Memory.read s.mem s.pc.toNat ++ Memory.read s.mem (s.pc.toNat + 1) →
        (decode op = none → step s = .next { s with fault := some ⟨.unknownOpcode op, s.pc, some op⟩ }) ∧
        (∀ i, decode op = some i →
          (∀ u, exec i s = .next u → u.fault ≠ none → step s = .next u) ∧
          (∀ u, exec i s = .next u → u.fault = none →
            step s = .next { u with dt := if u.dt = 0 then 0 else u.dt - 1, st := if u.st = 0 then 0 else u.st - 1 })))

/-- The timer tick (R36): after the instruction's own effect each timer is one lower, stopping at 0, and nothing else
changes; so FX15 leaves vx - 1, FX07 reads DT before the tick, and a stalled FX0A ticks; a step that faults and a step
taken while FAULT is set do not tick. -/
def Obligations.TimersTickOncePerStep : Prop :=
  (∀ (s : State) (op : Word) (i : Instr) (u : State), s.fault = none → s.fetch = some op → decode op = some i →
    exec i s = .next u → u.fault = none →
    ∃ t, step s = .next t ∧ t.dt.toNat = u.dt.toNat - 1 ∧ t.st.toNat = u.st.toNat - 1 ∧
      FrameBut (fun p => p = .dt ∨ p = .st) u t) ∧
  (∀ (s : State) (op : Word) (x : Reg), s.fault = none → s.fetch = some op → decode op = some (.ldDtVx x) →
    ∃ t, step s = .next t ∧ t.dt.toNat = (s.reg x).toNat - 1) ∧
  (∀ (s : State) (op : Word) (x : Reg), s.fault = none → s.fetch = some op → decode op = some (.ldVxDt x) →
    ∃ t, step s = .next t ∧ t.reg x = s.dt ∧ t.dt.toNat = s.dt.toNat - 1) ∧
  (∀ (s : State) (op : Word) (x : Reg), s.fault = none → s.fetch = some op → decode op = some (.waitKey x) →
    (∀ k : Reg, s.key[k.val] = false) →
    ∃ t, step s = .next t ∧ t.dt.toNat = s.dt.toNat - 1 ∧ t.st.toNat = s.st.toNat - 1) ∧
  (∀ s t : State, step s = .next t → t.fault ≠ none → t.dt = s.dt ∧ t.st = s.st)

/-- Fault entry (R204, the spec's decision D11): every step answers a next state; one that faults sets FAULT to the kind
and info, pc0 and the fetched word, and changes nothing else; while FAULT is set a step changes nothing. The failure that
the step returns to the host is the latch of its next state (log entry 1). -/
def Obligations.FaultsArePrecise : Prop :=
  (∀ s : State, s.fault = none → ∃ t, step s = .next t ∧
    (t.fault ≠ none → ∃ c, t = { s with fault := some ⟨c, s.pc, s.fetch⟩ })) ∧
  (∀ s : State, s.fault ≠ none → step s = .next s)

/-- The one fault a step can raise is found in the order fetch, decode, execute (R207). -/
def Obligations.FaultPriority : Prop :=
  ∀ s : State, s.fault = none → ∃ t, step s = .next t ∧ t.fault = stepFault s

/-- What each instruction's execute phase can raise, when, and with what info, as the table of R200 says; the 26
instructions the table does not name raise nothing; a fault leaves everything but FAULT (R200, R204). -/
def Obligations.ExecuteFaultsAsTabled : Prop :=
  ∀ (i : Instr) (s : State), ∃ t, exec i s = .next t ∧
    (∀ c, executeFault i s = some c → t = { s with fault := some ⟨c, s.pc, some (encode i)⟩ }) ∧
    (executeFault i s = none → t.fault = s.fault)

/-! ### Control transfer -/

/-- 00EE (R100, R203): with SP above 0, SP is one lower, PC is the popped entry plus 2, the entry stays; with SP = 0 it
faults with StackUnderflow (the spec's decision D4). -/
def Obligations.ReturnResumesAfterCall : Prop :=
  ∀ s : State, decode 0x00EE = some .ret ∧
    (∀ h : 0 < s.sp.val, ∃ t, exec .ret s = .next t ∧ t.sp.val = s.sp.val - 1 ∧
      t.pc = s.stackAt ⟨s.sp.val - 1, by omega⟩ + 2 ∧ FrameBut (fun p => p = .sp ∨ p = .pc) s t) ∧
    (s.sp = 0 → exec .ret s = .next { s with fault := some ⟨.stackUnderflow 0, s.pc, some 0x00EE⟩ })

/-- 1NNN (R101): PC is NNN. -/
def Obligations.JumpSetsPc : Prop :=
  ∀ (nnn : Addr12) (s : State), decode (wordNNN 0x1 nnn) = some (.jp nnn) ∧
    ∃ t, exec (.jp nnn) s = .next t ∧ t.pc.toNat = nnn.toNat ∧ FrameBut (fun p => p = .pc) s t

/-- 2NNN (R102, R202): with SP below 16, the entry at SP is the address of the call itself, SP is one higher, PC is NNN;
with SP = 16 it faults with StackOverflow (the spec's decision D3). -/
def Obligations.CallPushesItsOwnAddress : Prop :=
  ∀ (nnn : Addr12) (s : State), decode (wordNNN 0x2 nnn) = some (.call nnn) ∧
    (∀ h : s.sp.val < 16, ∃ t, exec (.call nnn) s = .next t ∧ t.stackAt ⟨s.sp.val, h⟩ = s.pc ∧
      t.sp.val = s.sp.val + 1 ∧ t.pc.toNat = nnn.toNat ∧
      FrameBut (fun p => p = .stack ⟨s.sp.val, h⟩ ∨ p = .sp ∨ p = .pc) s t) ∧
    (s.sp = 16 → exec (.call nnn) s =
      .next { s with fault := some ⟨.stackOverflow 16, s.pc, some (wordNNN 0x2 nnn)⟩ })

/-- BNNN (R103): PC is V0 + NNN, a natural-number sum with no wrap and no mask. -/
def Obligations.JumpAddsV0 : Prop :=
  ∀ (nnn : Addr12) (s : State), decode (wordNNN 0xB nnn) = some (.jpV0 nnn) ∧
    ∃ t, exec (.jpV0 nnn) s = .next t ∧ t.pc.toNat = (s.reg Reg.v0).toNat + nnn.toNat ∧
      FrameBut (fun p => p = .pc) s t

/-- 3XNN and 4XNN (R104, R105): PC is pc0 + 4 when the condition on VX and NN holds, else pc0 + 2. -/
def Obligations.SkipOnImmediate : Prop :=
  ∀ (x : Reg) (nn : Byte) (s : State),
    decode (wordXNN 0x3 x nn) = some (.seImm x nn) ∧ decode (wordXNN 0x4 x nn) = some (.sneImm x nn) ∧
    (∃ t, exec (.seImm x nn) s = .next t ∧ t.pc = (if s.reg x = nn then s.pc + 4 else s.pc + 2) ∧
      FrameBut (fun p => p = .pc) s t) ∧
    (∃ t, exec (.sneImm x nn) s = .next t ∧ t.pc = (if s.reg x ≠ nn then s.pc + 4 else s.pc + 2) ∧
      FrameBut (fun p => p = .pc) s t)

/-- 5XY0 and 9XY0 (R106, R107): PC is pc0 + 4 when the condition on VX and VY holds, else pc0 + 2; with a nonzero last
nibble the word is unknown. -/
def Obligations.SkipOnRegisters : Prop :=
  ∀ (x y : Reg) (s : State),
    decode (wordXYN 0x5 x y 0x0) = some (.seReg x y) ∧ decode (wordXYN 0x9 x y 0x0) = some (.sneReg x y) ∧
    (∀ n : Nibble, n ≠ 0 → decode (wordXYN 0x5 x y n) = none ∧ decode (wordXYN 0x9 x y n) = none) ∧
    (∃ t, exec (.seReg x y) s = .next t ∧ t.pc = (if s.reg x = s.reg y then s.pc + 4 else s.pc + 2) ∧
      FrameBut (fun p => p = .pc) s t) ∧
    (∃ t, exec (.sneReg x y) s = .next t ∧ t.pc = (if s.reg x ≠ s.reg y then s.pc + 4 else s.pc + 2) ∧
      FrameBut (fun p => p = .pc) s t)

/-- A call and its return (R100, R102): from a state whose stack has room, the return executed with the stack the call
left gives the call site plus 2 and the stack depth from before the call. -/
def Obligations.CallThenReturnResumes : Prop :=
  ∀ (nnn : Addr12) (s : State), s.sp.val < 16 → ∃ t, exec (.call nnn) s = .next t ∧
    ∀ u : State, u.sp = t.sp → u.stack = t.stack →
      ∃ w, exec .ret u = .next w ∧ w.pc = s.pc + 2 ∧ w.sp = s.sp

/-! ### Register load and the ALU -/

/-- 6XNN (R120): VX is NN; the flag is not written otherwise. -/
def Obligations.LoadImmediate : Prop :=
  ∀ (x : Reg) (nn : Byte) (s : State), decode (wordXNN 0x6 x nn) = some (.ldImm x nn) ∧
    ∃ t, exec (.ldImm x nn) s = .next t ∧ t.reg x = nn ∧ t.pc = s.pc + 2 ∧
      FrameBut (fun p => p = .reg x ∨ p = .pc) s t

/-- 7XNN (R121): VX is the sum modulo 256; VF is not written, even on a wrap. -/
def Obligations.AddImmediateWithoutFlag : Prop :=
  ∀ (x : Reg) (nn : Byte) (s : State), decode (wordXNN 0x7 x nn) = some (.addImm x nn) ∧
    ∃ t, exec (.addImm x nn) s = .next t ∧ (t.reg x).toNat = ((s.reg x).toNat + nn.toNat) % 256 ∧
      t.pc = s.pc + 2 ∧ FrameBut (fun p => p = .reg x ∨ p = .pc) s t

/-- 8XY0 (R122): VX is vy. -/
def Obligations.CopyRegister : Prop :=
  ∀ (x y : Reg) (s : State), decode (wordXYN 0x8 x y 0x0) = some (.ldReg x y) ∧
    ∃ t, exec (.ldReg x y) s = .next t ∧ t.reg x = s.reg y ∧ t.pc = s.pc + 2 ∧
      FrameBut (fun p => p = .reg x ∨ p = .pc) s t

/-- 8XY1, 8XY2, 8XY3 (R123, R124, R125): bit by bit OR, AND, exclusive OR of vx and vy; VF unchanged (the spec's
decision D25). -/
def Obligations.LogicBitByBit : Prop :=
  ∀ (x y : Reg) (s : State),
    decode (wordXYN 0x8 x y 0x1) = some (.orReg x y) ∧ decode (wordXYN 0x8 x y 0x2) = some (.andReg x y) ∧
    decode (wordXYN 0x8 x y 0x3) = some (.xorReg x y) ∧
    (∃ t, exec (.orReg x y) s = .next t ∧
      (∀ k, (t.reg x).getLsbD k = ((s.reg x).getLsbD k || (s.reg y).getLsbD k)) ∧ t.pc = s.pc + 2 ∧
      FrameBut (fun p => p = .reg x ∨ p = .pc) s t) ∧
    (∃ t, exec (.andReg x y) s = .next t ∧
      (∀ k, (t.reg x).getLsbD k = ((s.reg x).getLsbD k && (s.reg y).getLsbD k)) ∧ t.pc = s.pc + 2 ∧
      FrameBut (fun p => p = .reg x ∨ p = .pc) s t) ∧
    (∃ t, exec (.xorReg x y) s = .next t ∧
      (∀ k, (t.reg x).getLsbD k = ((s.reg x).getLsbD k ^^ (s.reg y).getLsbD k)) ∧ t.pc = s.pc + 2 ∧
      FrameBut (fun p => p = .reg x ∨ p = .pc) s t)

/-- 8XY4 (R126): VX is the sum modulo 256 of the values at the start of the step (R12, the spec's decision D1), and VF the
carry, unless X = 0xF, where the result stays. -/
def Obligations.AddWithCarryFlag : Prop :=
  ∀ (x y : Reg) (s : State), decode (wordXYN 0x8 x y 0x4) = some (.addReg x y) ∧
    ∃ t, exec (.addReg x y) s = .next t ∧
      (t.reg x).toNat = ((s.reg x).toNat + (s.reg y).toNat) % 256 ∧
      (x ≠ Reg.vf → t.reg Reg.vf = if (s.reg x).toNat + (s.reg y).toNat > 255 then 1 else 0) ∧
      t.pc = s.pc + 2 ∧ FrameBut (fun p => p = .reg x ∨ p = .reg Reg.vf ∨ p = .pc) s t

/-- 8XY5 and 8XY7 (R127, R129): VX is the difference modulo 256 (of integers), and VF the inverted borrow, unless
X = 0xF, where the result stays. -/
def Obligations.SubtractWithInvertedBorrow : Prop :=
  ∀ (x y : Reg) (s : State),
    decode (wordXYN 0x8 x y 0x5) = some (.subReg x y) ∧ decode (wordXYN 0x8 x y 0x7) = some (.subnReg x y) ∧
    (∃ t, exec (.subReg x y) s = .next t ∧
      ((t.reg x).toNat : Int) = (((s.reg x).toNat : Int) - ((s.reg y).toNat : Int)) % 256 ∧
      (x ≠ Reg.vf → t.reg Reg.vf = if (s.reg x).toNat ≥ (s.reg y).toNat then 1 else 0) ∧
      t.pc = s.pc + 2 ∧ FrameBut (fun p => p = .reg x ∨ p = .reg Reg.vf ∨ p = .pc) s t) ∧
    (∃ t, exec (.subnReg x y) s = .next t ∧
      ((t.reg x).toNat : Int) = (((s.reg y).toNat : Int) - ((s.reg x).toNat : Int)) % 256 ∧
      (x ≠ Reg.vf → t.reg Reg.vf = if (s.reg y).toNat ≥ (s.reg x).toNat then 1 else 0) ∧
      t.pc = s.pc + 2 ∧ FrameBut (fun p => p = .reg x ∨ p = .reg Reg.vf ∨ p = .pc) s t)

/-- 8XY6 and 8XYE (R128, R130): VX shifted by one, VF the old bit 0 of VX in both (for 8XYE too), unless X = 0xF, where
the result stays; every value of Y gives the same effect. -/
def Obligations.ShiftsTakeBitZeroAsFlag : Prop :=
  ∀ (x y : Reg) (s : State),
    decode (wordXYN 0x8 x y 0x6) = some (.shr x y) ∧ decode (wordXYN 0x8 x y 0xE) = some (.shl x y) ∧
    (∃ t, exec (.shr x y) s = .next t ∧ (t.reg x).toNat = (s.reg x).toNat / 2 ∧
      (x ≠ Reg.vf → (t.reg Reg.vf).toNat = (s.reg x).toNat % 2) ∧
      t.pc = s.pc + 2 ∧ FrameBut (fun p => p = .reg x ∨ p = .reg Reg.vf ∨ p = .pc) s t ∧
      ∀ z, exec (.shr x z) s = .next t) ∧
    (∃ t, exec (.shl x y) s = .next t ∧ (t.reg x).toNat = (s.reg x).toNat * 2 % 256 ∧
      (x ≠ Reg.vf → (t.reg Reg.vf).toNat = (s.reg x).toNat % 2) ∧
      t.pc = s.pc + 2 ∧ FrameBut (fun p => p = .reg x ∨ p = .reg Reg.vf ∨ p = .pc) s t ∧
      ∀ z, exec (.shl x z) s = .next t)

/-! ### Index register, stores and loads -/

/-- ANNN (R140): I is NNN, zero-extended. -/
def Obligations.LoadIndex : Prop :=
  ∀ (nnn : Addr12) (s : State), decode (wordNNN 0xA nnn) = some (.ldI nnn) ∧
    ∃ t, exec (.ldI nnn) s = .next t ∧ t.i.toNat = nnn.toNat ∧ t.pc = s.pc + 2 ∧
      FrameBut (fun p => p = .i ∨ p = .pc) s t

/-- FX1E (R141): I is the sum modulo 65536; VF is not written, whatever the sum. -/
def Obligations.AddToIndex : Prop :=
  ∀ (x : Reg) (s : State), decode (wordXNN 0xF x 0x1E) = some (.addI x) ∧
    ∃ t, exec (.addI x) s = .next t ∧ t.i.toNat = (s.i.toNat + (s.reg x).toNat) % 65536 ∧ t.pc = s.pc + 2 ∧
      FrameBut (fun p => p = .i ∨ p = .pc) s t

/-- FX29 (R142): I is five times vx, all 8 bits of it. -/
def Obligations.PointAtGlyph : Prop :=
  ∀ (x : Reg) (s : State), decode (wordXNN 0xF x 0x29) = some (.ldF x) ∧
    ∃ t, exec (.ldF x) s = .next t ∧ t.i.toNat = (s.reg x).toNat * 5 ∧ t.pc = s.pc + 2 ∧
      FrameBut (fun p => p = .i ∨ p = .pc) s t

/-- FX33 (R143): hundreds, tens and ones of vx at I, I + 1, I + 2, every other byte kept; above 0xFFD it faults and no
byte is written. -/
def Obligations.StoreDecimalDigits : Prop :=
  ∀ (x : Reg) (s : State), decode (wordXNN 0xF x 0x33) = some (.ldB x) ∧
    (dataAddr s.i 2 ≤ 0xFFF → ∃ t, exec (.ldB x) s = .next t ∧
      (Memory.read t.mem (dataAddr s.i 0)).toNat = (s.reg x).toNat / 100 ∧
      (Memory.read t.mem (dataAddr s.i 1)).toNat = (s.reg x).toNat / 10 % 10 ∧
      (Memory.read t.mem (dataAddr s.i 2)).toNat = (s.reg x).toNat % 10 ∧ t.pc = s.pc + 2 ∧
      FrameBut (fun p => p = .pc ∨ ∃ k ≤ 2, p = .byte (dataAddr s.i k)) s t) ∧
    (0xFFF < dataAddr s.i 2 → exec (.ldB x) s = .next { s with
      fault := some ⟨.addressOutOfRange .data (BitVec.ofNat 16 (max s.i.toNat 0x1000)), s.pc,
        some (wordXNN 0xF x 0x33)⟩ })

/-- FX55 (R144): V0 to VX at I to I + X, every other byte kept, I and every register kept; when the range leaves memory it
faults and no byte is written. -/
def Obligations.StoreRegisters : Prop :=
  ∀ (x : Reg) (s : State), decode (wordXNN 0xF x 0x55) = some (.storeRegs x) ∧
    (dataAddr s.i x.val ≤ 0xFFF → ∃ t, exec (.storeRegs x) s = .next t ∧
      (∀ k : Reg, k ≤ x → Memory.read t.mem (dataAddr s.i k.val) = s.reg k) ∧ t.pc = s.pc + 2 ∧
      FrameBut (fun p => p = .pc ∨ ∃ k ≤ x, p = .byte (dataAddr s.i k.val)) s t) ∧
    (0xFFF < dataAddr s.i x.val → exec (.storeRegs x) s = .next { s with
      fault := some ⟨.addressOutOfRange .data (BitVec.ofNat 16 (max s.i.toNat 0x1000)), s.pc,
        some (wordXNN 0xF x 0x55)⟩ })

/-- FX65 (R145): V0 to VX are the bytes at I to I + X, the registers above X kept, I and memory kept; when the range leaves
memory it faults and no register is written. -/
def Obligations.LoadRegisters : Prop :=
  ∀ (x : Reg) (s : State), decode (wordXNN 0xF x 0x65) = some (.loadRegs x) ∧
    (dataAddr s.i x.val ≤ 0xFFF → ∃ t, exec (.loadRegs x) s = .next t ∧
      (∀ k : Reg, k ≤ x → t.reg k = Memory.read s.mem (dataAddr s.i k.val)) ∧ t.pc = s.pc + 2 ∧
      FrameBut (fun p => p = .pc ∨ ∃ k ≤ x, p = .reg k) s t) ∧
    (0xFFF < dataAddr s.i x.val → exec (.loadRegs x) s = .next { s with
      fault := some ⟨.addressOutOfRange .data (BitVec.ofNat 16 (max s.i.toNat 0x1000)), s.pc,
        some (wordXNN 0xF x 0x65)⟩ })

/-- Stored bytes are what the next fetch reads, V0 as the high byte (the spec's own inference in R54 and R62): after FX55
with X at least 1, a fetch at I reads the word V0, V1. -/
def Obligations.StoredInstructionIsFetchedNext : Prop :=
  ∀ (x : Reg) (s : State), 1 ≤ x.val → dataAddr s.i x.val ≤ 0xFFF →
    ∃ t, exec (.storeRegs x) s = .next t ∧ (t.jumpTo s.i).fetch = some (s.reg 0 ++ s.reg 1)

/-! ### Random byte, keypad, timers -/

/-- CXNN (R160): VX is the draw AND NN, for whatever value the draw has, so its bits are 0 where NN's are and it is at most
NN; the next CXNN takes the next draw (log entry 3). -/
def Obligations.RandomByteIsMasked : Prop :=
  ∀ (x : Reg) (nn : Byte) (s : State), decode (wordXNN 0xC x nn) = some (.rnd x nn) ∧
    ∃ t, exec (.rnd x nn) s = .next t ∧ t.reg x = Config.rnd s.draws &&& nn ∧
      (∀ k, nn.getLsbD k = false → (t.reg x).getLsbD k = false) ∧ (t.reg x).toNat ≤ nn.toNat ∧
      t.draws = s.draws + 1 ∧ t.pc = s.pc + 2 ∧ FrameBut (fun p => p = .reg x ∨ p = .pc ∨ p = .draws) s t

/-- EX9E and EXA1 (R161, R162, R206): with vx at most 0xF, PC is pc0 + 4 when key vx is pressed (not pressed), else pc0 + 2;
above 0xF both fault with KeyIndexOutOfRange (the spec's decision D7). -/
def Obligations.SkipOnKey : Prop :=
  ∀ (x : Reg) (s : State),
    decode (wordXNN 0xE x 0x9E) = some (.skp x) ∧ decode (wordXNN 0xE x 0xA1) = some (.sknp x) ∧
    (∀ h : (s.reg x).toNat < 16,
      (∃ t, exec (.skp x) s = .next t ∧ t.pc = (if s.key[(s.reg x).toNat] = true then s.pc + 4 else s.pc + 2) ∧
        FrameBut (fun p => p = .pc) s t) ∧
      (∃ t, exec (.sknp x) s = .next t ∧ t.pc = (if s.key[(s.reg x).toNat] = false then s.pc + 4 else s.pc + 2) ∧
        FrameBut (fun p => p = .pc) s t)) ∧
    (0xF < (s.reg x).toNat →
      exec (.skp x) s = .next { s with
        fault := some ⟨.keyIndexOutOfRange (s.reg x), s.pc, some (wordXNN 0xE x 0x9E)⟩ } ∧
      exec (.sknp x) s = .next { s with
        fault := some ⟨.keyIndexOutOfRange (s.reg x), s.pc, some (wordXNN 0xE x 0xA1)⟩ })

/-- FX0A (R164): with some key pressed, VX is the index of a pressed key (the one, when it is alone) and PC is pc0 + 2; with
none pressed nothing changes, PC included, and the stalled step only ticks the timers. It holds for every choice among
several keys. -/
def Obligations.WaitForKey : Prop :=
  ∀ (x : Reg) (s : State), decode (wordXNN 0xF x 0x0A) = some (.waitKey x) ∧
    (∀ j : Reg, s.key[j.val] = true → ∃ t, exec (.waitKey x) s = .next t ∧
      (∃ k : Reg, s.key[k.val] = true ∧ (t.reg x).toNat = k.val) ∧
      ((∀ k : Reg, s.key[k.val] = true → k = j) → (t.reg x).toNat = j.val) ∧ t.pc = s.pc + 2 ∧
      FrameBut (fun p => p = .reg x ∨ p = .pc) s t) ∧
    ((∀ k : Reg, s.key[k.val] = false) → exec (.waitKey x) s = .next s ∧
      ∀ op : Word, s.fault = none → s.fetch = some op → decode op = some (.waitKey x) →
        ∃ t, step s = .next t ∧ t.dt.toNat = s.dt.toNat - 1 ∧ t.st.toNat = s.st.toNat - 1 ∧
          FrameBut (fun p => p = .dt ∨ p = .st) s t)

/-- FX07 (R163): VX is DT as it was before the step's tick. -/
def Obligations.ReadDelayTimer : Prop :=
  ∀ (x : Reg) (s : State), decode (wordXNN 0xF x 0x07) = some (.ldVxDt x) ∧
    ∃ t, exec (.ldVxDt x) s = .next t ∧ t.reg x = s.dt ∧ t.pc = s.pc + 2 ∧
      FrameBut (fun p => p = .reg x ∨ p = .pc) s t

/-- FX15 and FX18 (R165, R166): the instruction's own effect leaves DT, or ST, at vx (the tick at the end of the step is
`TimersTickOncePerStep`'s). -/
def Obligations.SetTimers : Prop :=
  ∀ (x : Reg) (s : State),
    decode (wordXNN 0xF x 0x15) = some (.ldDtVx x) ∧ decode (wordXNN 0xF x 0x18) = some (.ldStVx x) ∧
    (∃ t, exec (.ldDtVx x) s = .next t ∧ t.dt = s.reg x ∧ t.pc = s.pc + 2 ∧
      FrameBut (fun p => p = .dt ∨ p = .pc) s t) ∧
    (∃ t, exec (.ldStVx x) s = .next t ∧ t.st = s.reg x ∧ t.pc = s.pc + 2 ∧
      FrameBut (fun p => p = .st ∨ p = .pc) s t)

/-! ### Display -/

/-- 00E0 (R180): every pixel 0, RF raised whether or not a pixel changed, VF kept. -/
def Obligations.ClearDisplay : Prop :=
  ∀ s : State, decode 0x00E0 = some .cls ∧
    ∃ t, exec .cls s = .next t ∧ (∀ px py, Display.pixel t.fb px py = false) ∧ t.rf = true ∧ t.pc = s.pc + 2 ∧
      FrameBut (fun p => p = .rf ∨ p = .pc ∨ ∃ px py, p = .pixel px py) s t

/-- DXYN (R181, R182, R183): when the N sprite bytes exist (or N = 0), every canvas pixel is XORed with the sprite bit aimed
at it, bits aimed off the canvas do nothing, VF is 1 exactly when a 1 bit lands on a pixel that was 1, RF is raised; else
it faults and nothing is drawn. -/
def Obligations.DrawSprite : Prop :=
  ∀ (x y n : Fin 16) (s : State), decode (wordXYN 0xD x y (BitVec.ofFin n)) = some (.drw x y n) ∧
    (n.val = 0 ∨ dataAddr s.i (n.val - 1) ≤ 0xFFF → ∃ t, exec (.drw x y n) s = .next t ∧
      (∀ px py, Display.pixel t.fb px py =
        (Display.pixel s.fb px py ^^ spriteAt s.mem s.i (s.reg x) (s.reg y) n.val px py)) ∧
      ((∃ px py, spriteAt s.mem s.i (s.reg x) (s.reg y) n.val px py = true ∧ Display.pixel s.fb px py = true) →
        t.reg Reg.vf = 1) ∧
      ((∀ px py, spriteAt s.mem s.i (s.reg x) (s.reg y) n.val px py = true → Display.pixel s.fb px py = false) →
        t.reg Reg.vf = 0) ∧
      t.rf = true ∧ t.pc = s.pc + 2 ∧
      FrameBut (fun p => p = .reg Reg.vf ∨ p = .rf ∨ p = .pc ∨ ∃ px py, p = .pixel px py) s t) ∧
    (1 ≤ n.val → 0xFFF < dataAddr s.i (n.val - 1) → exec (.drw x y n) s = .next { s with
      fault := some ⟨.addressOutOfRange .data (BitVec.ofNat 16 (max s.i.toNat 0x1000)), s.pc,
        some (wordXYN 0xD x y (BitVec.ofFin n))⟩ })

/-- Drawing is its own inverse (R181): the same sprite drawn again at the same origin, with the registers as they were for
the first draw, restores the display. The clause on VF is the model's reading of R181's pseudocode (log entry 14, DEDUCED),
not a sentence of the spec: the second draw reports a collision exactly when some sprite bit of 1 landed on a canvas pixel
that was 0 before the first, where the corner-case sentence of R181 says VF = 1 if the sprite has any 1 bit on the canvas. -/
def Obligations.DrawTwiceRestoresDisplay : Prop :=
  ∀ (x y n : Fin 16) (s : State), n.val = 0 ∨ dataAddr s.i (n.val - 1) ≤ 0xFFF →
    ∃ t u, exec (.drw x y n) s = .next t ∧ exec (.drw x y n) { t with v := s.v } = .next u ∧ u.fb = s.fb ∧
      (u.reg Reg.vf = 1 ↔
        ∃ px py, spriteAt s.mem s.i (s.reg x) (s.reg y) n.val px py = true ∧ Display.pixel s.fb px py = false)

/-! ### Rules of the whole machine -/

/-- No step writes the keypad array: the core only reads it (R29, R217). -/
def Obligations.StepNeverWritesKeys : Prop := ∀ s t : State, step s = .next t → t.key = s.key

/-- An instruction that completes leaves RF at 1 when it is 00E0 or DXYN and as it was otherwise: the core never clears it
(R30). -/
def Obligations.RedrawFlagRaisedOnlyByDisplay : Prop :=
  ∀ (i : Instr) (s t : State), exec i s = .next t → executeFault i s = none →
    ((i = .cls ∨ ∃ x y n, i = .drw x y n) → t.rf = true) ∧
    (i ≠ .cls → (∀ x y n, i ≠ .drw x y n) → t.rf = s.rf)

/-- Memory is written only by FX33, at I to I + 2, and FX55, at I to I + X (R50, R51). -/
def Obligations.MemoryWrittenOnlyByStores : Prop :=
  ∀ (i : Instr) (s t : State) (a : Nat), exec i s = .next t → Memory.read t.mem a ≠ Memory.read s.mem a →
    (∃ x, i = .ldB x ∧ ∃ k ≤ 2, a = dataAddr s.i k) ∨
    (∃ x, i = .storeRegs x ∧ ∃ k ≤ x, a = dataAddr s.i k.val)

/-- VF changes only in the six flag-writing instructions and in those that write a register selected by X when X = 0xF (the
frame rule R13). -/
def Obligations.FlagRegisterWriters : Prop :=
  ∀ (i : Instr) (s t : State), exec i s = .next t → t.reg Reg.vf ≠ s.reg Reg.vf →
    (∃ x y, i = .addReg x y ∨ i = .subReg x y ∨ i = .shr x y ∨ i = .subnReg x y ∨ i = .shl x y) ∨
    (∃ x y n, i = .drw x y n) ∨
    (∃ nn, i = .ldImm Reg.vf nn ∨ i = .addImm Reg.vf nn ∨ i = .rnd Reg.vf nn) ∨
    (∃ y, i = .ldReg Reg.vf y ∨ i = .orReg Reg.vf y ∨ i = .andReg Reg.vf y ∨ i = .xorReg Reg.vf y) ∨
    i = .ldVxDt Reg.vf ∨ i = .waitKey Reg.vf ∨ i = .loadRegs Reg.vf

/-- I comes to hold a value above 0xFFF only through FX1E (R22). -/
def Obligations.IndexLeavesMemoryOnlyByAdd : Prop :=
  ∀ (i : Instr) (s t : State), exec i s = .next t → s.i.toNat ≤ 0xFFF → 0xFFF < t.i.toNat → ∃ x, i = .addI x

/-- Neither the sound timer nor the redraw flag is ever read (R27, R30): two machines that differ only in them take the same
step but for them. -/
def Obligations.SoundTimerAndRedrawNeverRead : Prop :=
  ∀ (s : State) (b : Byte) (f : Bool), ∃ t u, step s = .next t ∧ step { s with st := b, rf := f } = .next u ∧
    u = { t with st := u.st, rf := u.rf }

/-- Stack entries at and above SP are never read (R25, R33): two machines that differ only in them take the same step, and
differ afterwards only in entries at and above SP. -/
def Obligations.StaleStackEntriesNeverRead : Prop :=
  ∀ (s : State) (stack' : Vector Word 16), (∀ j : Fin 16, j.val < s.sp.val → stack'[j.val] = s.stackAt j) →
    ∃ t u, step s = .next t ∧ step { s with stack := stack' } = .next u ∧ u = { t with stack := u.stack } ∧
      ∀ j : Fin 16, j.val < t.sp.val → u.stackAt j = t.stackAt j

/-- From a resting state (a jump to itself) any number of steps changes nothing but DT and ST, each of which ticks down to
0 and stays (R251). -/
def Obligations.RestingStateOnlyTicks : Prop :=
  ∀ (s : State) (op : Word) (nnn : Addr12) (k : Nat), s.fault = none → s.fetch = some op →
    decode op = some (.jp nnn) → nnn.toNat = s.pc.toNat →
    ∃ t : State, Host.Core.run Sys2Proof.core k s = .next t ∧ t.dt.toNat = s.dt.toNat - k ∧
      t.st.toNat = s.st.toNat - k ∧ FrameBut (fun p => p = .dt ∨ p = .st) s t

/-! ### Invariants -/

/-- The invariant holds after reset: memory in canonical form (a form of the model's own, log entry 16), PC at most 0x10FE,
stack entries at most 0xFFE, and a truthful fault latch. That no fault is latched is `ResetState`'s. -/
def Obligations.ResetMeetsInvariant : Prop := State.reset.Inv

/-- Every step keeps the invariant: memory stays canonical (a form of the model's own, log entry 16), PC at most 0x10FE and
every stack entry at most 0xFFE (the bounds R24 derives), and a latched fault describes the state it is latched in (R31). -/
def Obligations.StepKeepsInvariant : Prop := ∀ s t : State, s.Inv → step s = .next t → t.Inv

/-- Every move of the host keeps the invariant (R216). -/
def Obligations.HostMovesKeepInvariant : Prop := ∀ (m : HostMove) (s : State), s.Inv → (hostMove m s).Inv

/-- The parts a reader can see determine the state: two states with canonical memory (a form of the model's own, log entry
16) that agree in every part are equal. -/
def Obligations.PartsDetermineState : Prop :=
  ∀ s t : State, s.mem.wf → t.mem.wf → (∀ p, Same p s t) → t = s

/-! ### The host's operations -/

/-- The state after reset (R37): every general register, I, SP, stack entry, timer, pixel, key and RF 0, FAULT none, PC 0x200,
the glyph bytes at 0x000 to 0x04F and 0 in every other byte. -/
def Obligations.ResetState : Prop :=
  (∀ r, State.reset.reg r = 0) ∧ State.reset.i = 0 ∧ State.reset.pc = 0x200 ∧ State.reset.sp = 0 ∧
  (∀ j, State.reset.stackAt j = 0) ∧ State.reset.dt = 0 ∧ State.reset.st = 0 ∧
  (∀ px py, Display.pixel State.reset.fb px py = false) ∧ (∀ k : Reg, State.reset.key[k.val] = false) ∧
  State.reset.rf = false ∧ State.reset.fault = none ∧ Config.glyphs.length = 80 ∧
  (∀ (a : Nat) (h : a < Config.glyphs.length), Memory.read State.reset.mem a = Config.glyphs[a]) ∧
  (∀ a, 80 ≤ a → Memory.read State.reset.mem a = 0)

/-- Reset from any state, a faulted one included, gives the reset state, and a second reset changes nothing; reset and load
are the only moves of the host that take a latched fault away (R241). The model's own counter of draws runs on (log entry
3). -/
def Obligations.ResetFromAnyState : Prop :=
  (∀ s : State, FrameBut (fun p => p = .draws) State.reset (hostReset s) ∧ (hostReset s).fault = none ∧
    hostReset (hostReset s) = hostReset s) ∧
  (∀ (m : HostMove) (s : State), s.fault ≠ none → (hostMove m s).fault = none →
    m = .reset ∨ ∃ bytes, m = .load bytes)

/-- Load (R244, R245): at most 3584 bytes are copied verbatim from 0x200 on over the reset state; a longer program leaves the
reset state and returns LoadError. -/
def Obligations.LoadPlacesProgram : Prop :=
  ∀ (bytes : List Byte) (s : State),
    (bytes.length ≤ 3584 → ∃ t, hostLoad bytes s = (t, .ok) ∧
      (∀ (j : Nat) (h : j < bytes.length), Memory.read t.mem (0x200 + j) = bytes[j]) ∧ t.pc = 0x200 ∧
      FrameBut (fun p => ∃ j, j < bytes.length ∧ p = .byte (0x200 + j)) (hostReset s) t) ∧
    (3584 < bytes.length → hostLoad bytes s = (hostReset s, .loadError))

/-- The host's keypad write replaces all 16 entries and its clearing of the redraw flag sets RF to 0, each changing nothing
else (R217, R218). -/
def Obligations.HostWritesKeysAndRedraw : Prop :=
  ∀ (keys : Keys) (s : State),
    ((∀ k : Reg, (hostSetKeys keys s).key[k.val] = keys[k.val]) ∧
      FrameBut (fun p => ∃ k, p = .key k) s (hostSetKeys keys s)) ∧
    ((hostClearRedraw s).rf = false ∧ FrameBut (fun p => p = .rf) s (hostClearRedraw s))

end Statements
end

