-- ==== Sys2Proof/Laws/State.lean ====
section
/-!
SUPPORT. One lemma per field per update of the state (each true by rfl), and what reading a register gives after each
update, so that no later proof unfolds a record update.
-/
namespace Sys2Proof.Machine

variable (s : State)

/-! ### setReg -/

@[simp] theorem State.setReg_v (r : Reg) (b : Byte) : (s.setReg r b).v = s.v.set r.val b := rfl
@[simp] theorem State.setReg_i (r : Reg) (b : Byte) : (s.setReg r b).i = s.i := rfl
@[simp] theorem State.setReg_pc (r : Reg) (b : Byte) : (s.setReg r b).pc = s.pc := rfl
@[simp] theorem State.setReg_sp (r : Reg) (b : Byte) : (s.setReg r b).sp = s.sp := rfl
@[simp] theorem State.setReg_stack (r : Reg) (b : Byte) : (s.setReg r b).stack = s.stack := rfl
@[simp] theorem State.setReg_dt (r : Reg) (b : Byte) : (s.setReg r b).dt = s.dt := rfl
@[simp] theorem State.setReg_st (r : Reg) (b : Byte) : (s.setReg r b).st = s.st := rfl
@[simp] theorem State.setReg_fb (r : Reg) (b : Byte) : (s.setReg r b).fb = s.fb := rfl
@[simp] theorem State.setReg_key (r : Reg) (b : Byte) : (s.setReg r b).key = s.key := rfl
@[simp] theorem State.setReg_rf (r : Reg) (b : Byte) : (s.setReg r b).rf = s.rf := rfl
@[simp] theorem State.setReg_fault (r : Reg) (b : Byte) : (s.setReg r b).fault = s.fault := rfl
@[simp] theorem State.setReg_mem (r : Reg) (b : Byte) : (s.setReg r b).mem = s.mem := rfl
@[simp] theorem State.setReg_draws (r : Reg) (b : Byte) : (s.setReg r b).draws = s.draws := rfl

/-! ### setFlagThenReg -/

@[simp] theorem State.setFlagThenReg_v (x : Reg) (flag b : Byte) : (s.setFlagThenReg x flag b).v = (s.v.set Reg.vf.val flag).set x.val b := rfl
@[simp] theorem State.setFlagThenReg_i (x : Reg) (flag b : Byte) : (s.setFlagThenReg x flag b).i = s.i := rfl
@[simp] theorem State.setFlagThenReg_pc (x : Reg) (flag b : Byte) : (s.setFlagThenReg x flag b).pc = s.pc := rfl
@[simp] theorem State.setFlagThenReg_sp (x : Reg) (flag b : Byte) : (s.setFlagThenReg x flag b).sp = s.sp := rfl
@[simp] theorem State.setFlagThenReg_stack (x : Reg) (flag b : Byte) : (s.setFlagThenReg x flag b).stack = s.stack := rfl
@[simp] theorem State.setFlagThenReg_dt (x : Reg) (flag b : Byte) : (s.setFlagThenReg x flag b).dt = s.dt := rfl
@[simp] theorem State.setFlagThenReg_st (x : Reg) (flag b : Byte) : (s.setFlagThenReg x flag b).st = s.st := rfl
@[simp] theorem State.setFlagThenReg_fb (x : Reg) (flag b : Byte) : (s.setFlagThenReg x flag b).fb = s.fb := rfl
@[simp] theorem State.setFlagThenReg_key (x : Reg) (flag b : Byte) : (s.setFlagThenReg x flag b).key = s.key := rfl
@[simp] theorem State.setFlagThenReg_rf (x : Reg) (flag b : Byte) : (s.setFlagThenReg x flag b).rf = s.rf := rfl
@[simp] theorem State.setFlagThenReg_fault (x : Reg) (flag b : Byte) : (s.setFlagThenReg x flag b).fault = s.fault := rfl
@[simp] theorem State.setFlagThenReg_mem (x : Reg) (flag b : Byte) : (s.setFlagThenReg x flag b).mem = s.mem := rfl
@[simp] theorem State.setFlagThenReg_draws (x : Reg) (flag b : Byte) : (s.setFlagThenReg x flag b).draws = s.draws := rfl

/-! ### advance -/

@[simp] theorem State.advance_v : (s.advance).v = s.v := rfl
@[simp] theorem State.advance_i : (s.advance).i = s.i := rfl
@[simp] theorem State.advance_pc : (s.advance).pc = s.pc + 2 := rfl
@[simp] theorem State.advance_sp : (s.advance).sp = s.sp := rfl
@[simp] theorem State.advance_stack : (s.advance).stack = s.stack := rfl
@[simp] theorem State.advance_dt : (s.advance).dt = s.dt := rfl
@[simp] theorem State.advance_st : (s.advance).st = s.st := rfl
@[simp] theorem State.advance_fb : (s.advance).fb = s.fb := rfl
@[simp] theorem State.advance_key : (s.advance).key = s.key := rfl
@[simp] theorem State.advance_rf : (s.advance).rf = s.rf := rfl
@[simp] theorem State.advance_fault : (s.advance).fault = s.fault := rfl
@[simp] theorem State.advance_mem : (s.advance).mem = s.mem := rfl
@[simp] theorem State.advance_draws : (s.advance).draws = s.draws := rfl

/-! ### skipIf -/

@[simp] theorem State.skipIf_v (c : Bool) : (s.skipIf c).v = s.v := rfl
@[simp] theorem State.skipIf_i (c : Bool) : (s.skipIf c).i = s.i := rfl
@[simp] theorem State.skipIf_pc (c : Bool) : (s.skipIf c).pc = s.pc + if c then 4 else 2 := rfl
@[simp] theorem State.skipIf_sp (c : Bool) : (s.skipIf c).sp = s.sp := rfl
@[simp] theorem State.skipIf_stack (c : Bool) : (s.skipIf c).stack = s.stack := rfl
@[simp] theorem State.skipIf_dt (c : Bool) : (s.skipIf c).dt = s.dt := rfl
@[simp] theorem State.skipIf_st (c : Bool) : (s.skipIf c).st = s.st := rfl
@[simp] theorem State.skipIf_fb (c : Bool) : (s.skipIf c).fb = s.fb := rfl
@[simp] theorem State.skipIf_key (c : Bool) : (s.skipIf c).key = s.key := rfl
@[simp] theorem State.skipIf_rf (c : Bool) : (s.skipIf c).rf = s.rf := rfl
@[simp] theorem State.skipIf_fault (c : Bool) : (s.skipIf c).fault = s.fault := rfl
@[simp] theorem State.skipIf_mem (c : Bool) : (s.skipIf c).mem = s.mem := rfl
@[simp] theorem State.skipIf_draws (c : Bool) : (s.skipIf c).draws = s.draws := rfl

/-! ### jumpTo -/

@[simp] theorem State.jumpTo_v (w : Word) : (s.jumpTo w).v = s.v := rfl
@[simp] theorem State.jumpTo_i (w : Word) : (s.jumpTo w).i = s.i := rfl
@[simp] theorem State.jumpTo_pc (w : Word) : (s.jumpTo w).pc = w := rfl
@[simp] theorem State.jumpTo_sp (w : Word) : (s.jumpTo w).sp = s.sp := rfl
@[simp] theorem State.jumpTo_stack (w : Word) : (s.jumpTo w).stack = s.stack := rfl
@[simp] theorem State.jumpTo_dt (w : Word) : (s.jumpTo w).dt = s.dt := rfl
@[simp] theorem State.jumpTo_st (w : Word) : (s.jumpTo w).st = s.st := rfl
@[simp] theorem State.jumpTo_fb (w : Word) : (s.jumpTo w).fb = s.fb := rfl
@[simp] theorem State.jumpTo_key (w : Word) : (s.jumpTo w).key = s.key := rfl
@[simp] theorem State.jumpTo_rf (w : Word) : (s.jumpTo w).rf = s.rf := rfl
@[simp] theorem State.jumpTo_fault (w : Word) : (s.jumpTo w).fault = s.fault := rfl
@[simp] theorem State.jumpTo_mem (w : Word) : (s.jumpTo w).mem = s.mem := rfl
@[simp] theorem State.jumpTo_draws (w : Word) : (s.jumpTo w).draws = s.draws := rfl

/-! ### tick -/

@[simp] theorem State.tick_v : (s.tick).v = s.v := rfl
@[simp] theorem State.tick_i : (s.tick).i = s.i := rfl
@[simp] theorem State.tick_pc : (s.tick).pc = s.pc := rfl
@[simp] theorem State.tick_sp : (s.tick).sp = s.sp := rfl
@[simp] theorem State.tick_stack : (s.tick).stack = s.stack := rfl
@[simp] theorem State.tick_dt : (s.tick).dt = tickDown s.dt := rfl
@[simp] theorem State.tick_st : (s.tick).st = tickDown s.st := rfl
@[simp] theorem State.tick_fb : (s.tick).fb = s.fb := rfl
@[simp] theorem State.tick_key : (s.tick).key = s.key := rfl
@[simp] theorem State.tick_rf : (s.tick).rf = s.rf := rfl
@[simp] theorem State.tick_fault : (s.tick).fault = s.fault := rfl
@[simp] theorem State.tick_mem : (s.tick).mem = s.mem := rfl
@[simp] theorem State.tick_draws : (s.tick).draws = s.draws := rfl

/-! ### raise -/

@[simp] theorem raise_v (c : Fault) (op : Option Word) : (raise c op s).v = s.v := rfl
@[simp] theorem raise_i (c : Fault) (op : Option Word) : (raise c op s).i = s.i := rfl
@[simp] theorem raise_pc (c : Fault) (op : Option Word) : (raise c op s).pc = s.pc := rfl
@[simp] theorem raise_sp (c : Fault) (op : Option Word) : (raise c op s).sp = s.sp := rfl
@[simp] theorem raise_stack (c : Fault) (op : Option Word) : (raise c op s).stack = s.stack := rfl
@[simp] theorem raise_dt (c : Fault) (op : Option Word) : (raise c op s).dt = s.dt := rfl
@[simp] theorem raise_st (c : Fault) (op : Option Word) : (raise c op s).st = s.st := rfl
@[simp] theorem raise_fb (c : Fault) (op : Option Word) : (raise c op s).fb = s.fb := rfl
@[simp] theorem raise_key (c : Fault) (op : Option Word) : (raise c op s).key = s.key := rfl
@[simp] theorem raise_rf (c : Fault) (op : Option Word) : (raise c op s).rf = s.rf := rfl
@[simp] theorem raise_fault (c : Fault) (op : Option Word) : (raise c op s).fault = some { cause := c, pc := s.pc, op := op } := rfl
@[simp] theorem raise_mem (c : Fault) (op : Option Word) : (raise c op s).mem = s.mem := rfl
@[simp] theorem raise_draws (c : Fault) (op : Option Word) : (raise c op s).draws = s.draws := rfl

/-! ### Readings -/

@[simp] theorem State.reg_setReg_self (r : Reg) (b : Byte) : (s.setReg r b).reg r = b := by
  simp [State.reg]

theorem State.reg_setReg_of_ne {r q : Reg} (h : q ≠ r) (b : Byte) : (s.setReg r b).reg q = s.reg q := by
  have : r.val ≠ q.val := fun e => h (Fin.ext e.symm)
  simp [State.reg, Vector.getElem_set_ne, this]

@[simp] theorem State.reg_setReg (r q : Reg) (b : Byte) :
    (s.setReg r b).reg q = if q = r then b else s.reg q := by
  split
  · next h => subst h; simp
  · next h => exact s.reg_setReg_of_ne h b

/-- VF keeps the result when X = 0xF, the flag otherwise (R132). -/
@[simp] theorem State.reg_setFlagThenReg (x q : Reg) (flag b : Byte) :
    (s.setFlagThenReg x flag b).reg q = if q = x then b else if q = Reg.vf then flag else s.reg q := by
  simp [State.setFlagThenReg]

/-- A register reading depends on the register file alone. -/
theorem State.reg_congr {s t : State} (h : t.v = s.v) (r : Reg) : t.reg r = s.reg r := by
  simp [State.reg, h]

/-- A stack reading depends on the stack alone. -/
theorem State.stackAt_congr {s t : State} (h : t.stack = s.stack) (j : Fin 16) : t.stackAt j = s.stackAt j := by
  simp [State.stackAt, h]

@[simp] theorem State.stackAt_setReg (r : Reg) (b : Byte) (j : Fin 16) : (s.setReg r b).stackAt j = s.stackAt j := rfl
@[simp] theorem State.stackAt_setFlagThenReg (x : Reg) (flag b : Byte) (j : Fin 16) : (s.setFlagThenReg x flag b).stackAt j = s.stackAt j := rfl
@[simp] theorem State.reg_advance (q : Reg) : (s.advance).reg q = s.reg q := rfl
@[simp] theorem State.stackAt_advance (j : Fin 16) : (s.advance).stackAt j = s.stackAt j := rfl
@[simp] theorem State.reg_skipIf (c : Bool) (q : Reg) : (s.skipIf c).reg q = s.reg q := rfl
@[simp] theorem State.stackAt_skipIf (c : Bool) (j : Fin 16) : (s.skipIf c).stackAt j = s.stackAt j := rfl
@[simp] theorem State.reg_jumpTo (w : Word) (q : Reg) : (s.jumpTo w).reg q = s.reg q := rfl
@[simp] theorem State.stackAt_jumpTo (w : Word) (j : Fin 16) : (s.jumpTo w).stackAt j = s.stackAt j := rfl
@[simp] theorem State.reg_tick (q : Reg) : (s.tick).reg q = s.reg q := rfl
@[simp] theorem State.stackAt_tick (j : Fin 16) : (s.tick).stackAt j = s.stackAt j := rfl
@[simp] theorem State.reg_raise (c : Fault) (op : Option Word) (q : Reg) : (raise c op s).reg q = s.reg q := rfl
@[simp] theorem State.stackAt_raise (c : Fault) (op : Option Word) (j : Fin 16) : (raise c op s).stackAt j = s.stackAt j := rfl

end Sys2Proof.Machine
end

