-- ==== Sys2Proof/Laws/Display.lean ====
section
/-!
SUPPORT. Pixels and the blit: what a flip does, and what the whole blit does to each pixel and when it collides.
-/
namespace Sys2Proof.Machine

@[simp] theorem Display.pixel_clear (x : Fin 64) (y : Fin 32) : Display.pixel Display.clear x y = false := by
  simp [Display.pixel, Display.clear]

/-- Two pixels have the same place only if they are the same pixel (R28). -/
theorem pixel_place_inj {x x' : Fin 64} {y y' : Fin 32} :
    y.val * 64 + x.val = y'.val * 64 + x'.val ↔ x = x' ∧ y = y' := by
  simp only [Fin.ext_iff]; omega

/-- A flip inverts its pixel and leaves every other one. -/
theorem Display.pixel_flip (d : Display) (x x' : Fin 64) (y y' : Fin 32) :
    Display.pixel (Display.flip d x y) x' y' = (Display.pixel d x' y' ^^ decide (x' = x ∧ y' = y)) := by
  by_cases h : x' = x ∧ y' = y
  · obtain ⟨rfl, rfl⟩ := h
    simp [Display.pixel, Display.flip]
  · have : y.val * 64 + x.val ≠ y'.val * 64 + x'.val := fun e =>
      h ((pixel_place_inj.mp e).imp Eq.symm Eq.symm)
    simp only [h, decide_false, Bool.xor_false]
    simp only [Display.pixel, Display.flip]
    rw [Vector.getElem_set_ne _ _ this]

/-- The bit that columns below `c` of row `r` aim at pixel (px, py). -/
def rowAims (vx vy row : Byte) (r c : Nat) (px : Fin 64) (py : Fin 32) : Bool :=
  decide (vx.toNat ≤ px.val ∧ px.val < vx.toNat + c ∧ py.val = vy.toNat + r) && row.getLsbD (7 - (px.val - vx.toNat))

/-- What the first `c` columns of a row do: each pixel they aim a 1 at is flipped, and a collision is reported when one of
those pixels was 1 (R181). -/
theorem drawRow_columns (vx vy row : Byte) (r c : Nat) (acc : Display × Bool) :
    let out := (List.range c).foldl (drawPixel vx vy row r) acc
    (∀ px py, Display.pixel out.1 px py = (Display.pixel acc.1 px py ^^ rowAims vx vy row r c px py)) ∧
    (out.2 = true ↔ acc.2 = true ∨
      ∃ px py, rowAims vx vy row r c px py = true ∧ Display.pixel acc.1 px py = true) := by
  induction c with
  | zero =>
    have h0 : ∀ px py, rowAims vx vy row r 0 px py = false := by
      intro px py; simp only [rowAims, Bool.and_eq_false_iff, decide_eq_false_iff_not]; left; omega
    simp [h0]
  | succ c ih =>
    obtain ⟨ih1, ih2⟩ := ih
    rw [List.range_succ, List.foldl_append]
    simp only [List.foldl_cons, List.foldl_nil]
    generalize (List.range c).foldl (drawPixel vx vy row r) acc = mid at ih1 ih2
    -- the columns below c + 1 are those below c, and column c
    have split_aims : ∀ px py, rowAims vx vy row r (c + 1) px py =
        (rowAims vx vy row r c px py ||
          (decide (px.val = vx.toNat + c ∧ py.val = vy.toNat + r) && row.getLsbD (7 - c))) := by
      intro px py
      by_cases h : px.val = vx.toNat + c
      · simp [rowAims, h]
      · have h3 : (px.val < vx.toNat + (c + 1)) ↔ px.val < vx.toNat + c := by omega
        simp [rowAims, h3, h]
    have fresh : ∀ px py, px.val = vx.toNat + c → rowAims vx vy row r c px py = false := by
      intro px py h
      simp only [rowAims, Bool.and_eq_false_iff, decide_eq_false_iff_not]; left; omega
    unfold drawPixel
    by_cases hb : spriteColumn row c = true
    · have hb' : row.getLsbD (7 - c) = true := hb
      simp only [hb, if_true]
      by_cases hc : vx.toNat + c < 64 ∧ vy.toNat + r < 32
      · simp only [hc, and_self, dif_pos]
        constructor
        · intro px py
          rw [Display.pixel_flip, ih1, split_aims, hb', Bool.and_true]
          by_cases he : px.val = vx.toNat + c ∧ py.val = vy.toNat + r
          · have e1 : px = ⟨vx.toNat + c, hc.1⟩ ∧ py = ⟨vy.toNat + r, hc.2⟩ := ⟨Fin.ext he.1, Fin.ext he.2⟩
            rw [fresh px py he.1]; simp [e1]
          · have e1 : ¬ (px = ⟨vx.toNat + c, hc.1⟩ ∧ py = ⟨vy.toNat + r, hc.2⟩) := fun e =>
              he ⟨congrArg Fin.val e.1, congrArg Fin.val e.2⟩
            simp [he, e1]
        · simp only [Bool.or_eq_true, ih2, ih1, split_aims, hb', Bool.and_true, decide_eq_true_eq]
          rw [fresh _ _ rfl]
          simp only [Bool.xor_false]
          constructor
          · rintro ((h | ⟨px, py, h1, h2⟩) | h)
            · exact .inl h
            · exact .inr ⟨px, py, .inl h1, h2⟩
            · exact .inr ⟨_, _, .inr ⟨rfl, rfl⟩, h⟩
          · rintro (h | ⟨px, py, h1 | h1, h2⟩)
            · exact .inl (.inl h)
            · exact .inl (.inr ⟨px, py, h1, h2⟩)
            · right
              have e1 : px = ⟨vx.toNat + c, hc.1⟩ := Fin.ext h1.1
              have e2 : py = ⟨vy.toNat + r, hc.2⟩ := Fin.ext h1.2
              rw [← e1, ← e2]; exact h2
      · simp only [hc, dif_neg, not_false_iff]
        have same : ∀ px py, rowAims vx vy row r (c + 1) px py = rowAims vx vy row r c px py := by
          intro px py
          have : ¬ (px.val = vx.toNat + c ∧ py.val = vy.toNat + r) := by omega
          simp [split_aims, this]
        simp only [same]; exact ⟨ih1, ih2⟩
    · have hb' : row.getLsbD (7 - c) = false := by simpa [spriteColumn] using hb
      simp only [hb, Bool.false_eq_true, if_false]
      have same : ∀ px py, rowAims vx vy row r (c + 1) px py = rowAims vx vy row r c px py := by
        intro px py; simp [split_aims, hb']
      simp only [same]; exact ⟨ih1, ih2⟩

/-- What the blit does (R181, R183): each canvas pixel is XORed with the sprite bit aimed at it, and a collision is
reported exactly when a 1 bit lands on a pixel that was 1. -/
theorem blit_spec (mem : Memory) (i0 : Word) (vx vy : Byte) (n : Nat) (fb : Display) :
    (∀ px py, Display.pixel (blit mem i0 vx vy n fb).1 px py =
      (Display.pixel fb px py ^^ spriteAt mem i0 vx vy n px py)) ∧
    ((blit mem i0 vx vy n fb).2 = true ↔
      ∃ px py, spriteAt mem i0 vx vy n px py = true ∧ Display.pixel fb px py = true) := by
  unfold blit
  induction n with
  | zero =>
    have h0 : ∀ px py, spriteAt mem i0 vx vy 0 px py = false := by
      intro px py; simp only [spriteAt, Bool.and_eq_false_iff, decide_eq_false_iff_not]; left; omega
    simp [h0]
  | succ n ih =>
    obtain ⟨ih1, ih2⟩ := ih
    rw [List.range_succ, List.foldl_append]
    simp only [List.foldl_cons, List.foldl_nil]
    generalize (List.range n).foldl (drawRow mem i0 vx vy) (fb, false) = mid at ih1 ih2
    obtain ⟨row1, row2⟩ := drawRow_columns vx vy (mem.read (dataAddr i0 n)) n 8 mid
    -- the rows below n + 1 are those below n, and row n; no pixel is aimed at by both
    have split_aims : ∀ px py, spriteAt mem i0 vx vy (n + 1) px py =
        (spriteAt mem i0 vx vy n px py || rowAims vx vy (mem.read (dataAddr i0 n)) n 8 px py) := by
      intro px py
      by_cases h : py.val = vy.toNat + n
      · have h1 : py.val - vy.toNat = n := by omega
        have h3 : ¬ py.val < vy.toNat + n := by omega
        have h4 : vy.toNat ≤ py.val ∧ py.val < vy.toNat + (n + 1) := by omega
        simp only [spriteAt, rowAims, dataAddr, h1, h3, h4.1, h4.2, and_false, decide_false, Bool.false_and,
          Bool.false_or, and_true]
        simp [h]
      · have h3 : (py.val < vy.toNat + (n + 1)) ↔ py.val < vy.toNat + n := by omega
        simp [spriteAt, rowAims, h3, h]
    have fresh : ∀ px py, rowAims vx vy (mem.read (dataAddr i0 n)) n 8 px py = true →
        spriteAt mem i0 vx vy n px py = false := by
      intro px py h
      simp only [rowAims, Bool.and_eq_true, decide_eq_true_eq] at h
      simp only [spriteAt, Bool.and_eq_false_iff, decide_eq_false_iff_not]; left; omega
    refine ⟨fun px py => ?_, ?_⟩
    · show Display.pixel (drawRow mem i0 vx vy mid n).1 px py = _
      unfold drawRow
      rw [row1, ih1, split_aims]
      by_cases h : rowAims vx vy (mem.read (dataAddr i0 n)) n 8 px py = true
      · simp [h, fresh px py h]
      · simp [h]
    · show (drawRow mem i0 vx vy mid n).2 = true ↔ _
      unfold drawRow
      rw [row2, ih2]
      simp only [split_aims, Bool.or_eq_true, ih1]
      constructor
      · rintro (⟨px, py, h1, h2⟩ | ⟨px, py, h1, h2⟩)
        · exact ⟨px, py, .inl h1, h2⟩
        · exact ⟨px, py, .inr h1, by simpa [fresh px py h1] using h2⟩
      · rintro ⟨px, py, h1 | h1, h2⟩
        · exact .inl ⟨px, py, h1, h2⟩
        · exact .inr ⟨px, py, h1, by simpa [fresh px py h1] using h2⟩

/-! ### The state after a draw -/

variable (x y n : Fin 16) (s : State)

@[simp] theorem drawn_fb : (drawn x y n s).fb = (blit s.mem s.i (s.reg x) (s.reg y) n.val s.fb).1 := rfl
@[simp] theorem drawn_rf : (drawn x y n s).rf = true := rfl
@[simp] theorem drawn_pc : (drawn x y n s).pc = s.pc + 2 := rfl
@[simp] theorem drawn_i : (drawn x y n s).i = s.i := rfl
@[simp] theorem drawn_sp : (drawn x y n s).sp = s.sp := rfl
@[simp] theorem drawn_stack : (drawn x y n s).stack = s.stack := rfl
@[simp] theorem drawn_dt : (drawn x y n s).dt = s.dt := rfl
@[simp] theorem drawn_st : (drawn x y n s).st = s.st := rfl
@[simp] theorem drawn_key : (drawn x y n s).key = s.key := rfl
@[simp] theorem drawn_fault : (drawn x y n s).fault = s.fault := rfl
@[simp] theorem drawn_mem : (drawn x y n s).mem = s.mem := rfl
@[simp] theorem drawn_draws : (drawn x y n s).draws = s.draws := rfl

/-- VF is the collision; every other register is kept. -/
@[simp] theorem drawn_reg (q : Reg) : (drawn x y n s).reg q =
    if q = Reg.vf then flagByte (blit s.mem s.i (s.reg x) (s.reg y) n.val s.fb).2 else s.reg q :=
  s.reg_setReg _ _ _

end Sys2Proof.Machine
end

