-- ==== Sys2Proof/Laws/Encoding.lean ====
section
/-!
SUPPORT. The fields of the words the encoder builds, and the nibbles of a word.
-/
namespace Sys2Proof

theorem toFin_ofFin (x : Reg) : (BitVec.ofFin x : Nibble).toFin = x := rfl

/-- The value of a word of format NNN. -/
theorem wordNNN_toNat (n1 : Nibble) (nnn : Addr12) : (wordNNN n1 nnn).toNat = n1.toNat * 4096 + nnn.toNat := by
  have := nnn.isLt
  simp only [wordNNN, BitVec.toNat_append, Nat.shiftLeft_eq]
  rw [Nat.or_comm, ← Nat.shiftLeft_eq, Nat.or_comm, ← Nat.shiftLeft_add_eq_or_of_lt this, Nat.shiftLeft_eq]

/-- The value of a word of format XNN. -/
theorem wordXNN_toNat (n1 : Nibble) (x : Reg) (nn : Byte) :
    (wordXNN n1 x nn).toNat = n1.toNat * 4096 + x.val * 256 + nn.toNat := by
  have h1 := nn.isLt
  have h2 : (BitVec.ofFin x : Nibble).toNat < 2 ^ 4 := (BitVec.ofFin x : Nibble).isLt
  have h3 : (BitVec.ofFin x : Nibble).toNat = x.val := rfl
  simp only [wordXNN, BitVec.toNat_append]
  rw [← Nat.shiftLeft_add_eq_or_of_lt h1, ← Nat.shiftLeft_add_eq_or_of_lt h2]
  simp only [Nat.shiftLeft_eq, h3]; omega

/-- The value of a word of format XYN. -/
theorem wordXYN_toNat (n1 : Nibble) (x y : Reg) (n : Nibble) :
    (wordXYN n1 x y n).toNat = n1.toNat * 4096 + x.val * 256 + y.val * 16 + n.toNat := by
  have h1 := n.isLt
  have h2 : (BitVec.ofFin x : Nibble).toNat < 2 ^ 4 := (BitVec.ofFin x : Nibble).isLt
  have h4 : (BitVec.ofFin y : Nibble).toNat < 2 ^ 4 := (BitVec.ofFin y : Nibble).isLt
  have h3 : (BitVec.ofFin x : Nibble).toNat = x.val := rfl
  have h5 : (BitVec.ofFin y : Nibble).toNat = y.val := rfl
  simp only [wordXYN, BitVec.toNat_append]
  rw [← Nat.shiftLeft_add_eq_or_of_lt h1, ← Nat.shiftLeft_add_eq_or_of_lt h4, ← Nat.shiftLeft_add_eq_or_of_lt h2]
  simp only [Nat.shiftLeft_eq, h3, h5]; omega

/-! ### Fields by value -/

theorem fieldN1_toNat (op : Word) : (fieldN1 op).toNat = op.toNat / 4096 := by
  have := op.isLt
  simp only [fieldN1, BitVec.extractLsb'_toNat, Nat.shiftRight_eq_div_pow]; omega

theorem fieldX_val (op : Word) : (fieldX op).val = op.toNat / 256 % 16 := by
  simp [fieldX, Nat.shiftRight_eq_div_pow]

theorem fieldY_val (op : Word) : (fieldY op).val = op.toNat / 16 % 16 := by
  simp [fieldY, Nat.shiftRight_eq_div_pow]

theorem fieldN_toNat (op : Word) : (fieldN op).toNat = op.toNat % 16 := by
  simp [fieldN, BitVec.extractLsb'_toNat]

theorem fieldNN_toNat (op : Word) : (fieldNN op).toNat = op.toNat % 256 := by
  simp [fieldNN, BitVec.extractLsb'_toNat]

theorem fieldNNN_toNat (op : Word) : (fieldNNN op).toNat = op.toNat % 4096 := by
  simp [fieldNNN, BitVec.extractLsb'_toNat]

/-! ### Fields of the encoder's words -/

@[simp] theorem fieldN1_wordNNN (n1 : Nibble) (nnn : Addr12) : fieldN1 (wordNNN n1 nnn) = n1 := by
  apply BitVec.eq_of_toNat_eq; rw [fieldN1_toNat, wordNNN_toNat]; have := nnn.isLt; omega
@[simp] theorem fieldNNN_wordNNN (n1 : Nibble) (nnn : Addr12) : fieldNNN (wordNNN n1 nnn) = nnn := by
  apply BitVec.eq_of_toNat_eq; rw [fieldNNN_toNat, wordNNN_toNat]; have := nnn.isLt; omega
@[simp] theorem fieldN1_wordXNN (n1 : Nibble) (x : Reg) (nn : Byte) : fieldN1 (wordXNN n1 x nn) = n1 := by
  apply BitVec.eq_of_toNat_eq; rw [fieldN1_toNat, wordXNN_toNat]; have := nn.isLt; have := x.isLt; omega
@[simp] theorem fieldX_wordXNN (n1 : Nibble) (x : Reg) (nn : Byte) : fieldX (wordXNN n1 x nn) = x := by
  apply Fin.ext; rw [fieldX_val, wordXNN_toNat]; have := nn.isLt; have := x.isLt; omega
@[simp] theorem fieldNN_wordXNN (n1 : Nibble) (x : Reg) (nn : Byte) : fieldNN (wordXNN n1 x nn) = nn := by
  apply BitVec.eq_of_toNat_eq; rw [fieldNN_toNat, wordXNN_toNat]; have := nn.isLt; have := x.isLt; omega
@[simp] theorem fieldN1_wordXYN (n1 : Nibble) (x y : Reg) (n : Nibble) : fieldN1 (wordXYN n1 x y n) = n1 := by
  apply BitVec.eq_of_toNat_eq; rw [fieldN1_toNat, wordXYN_toNat]
  have := n.isLt; have := x.isLt; have := y.isLt; omega
@[simp] theorem fieldX_wordXYN (n1 : Nibble) (x y : Reg) (n : Nibble) : fieldX (wordXYN n1 x y n) = x := by
  apply Fin.ext; rw [fieldX_val, wordXYN_toNat]; have := n.isLt; have := x.isLt; have := y.isLt; omega
@[simp] theorem fieldY_wordXYN (n1 : Nibble) (x y : Reg) (n : Nibble) : fieldY (wordXYN n1 x y n) = y := by
  apply Fin.ext; rw [fieldY_val, wordXYN_toNat]; have := n.isLt; have := x.isLt; have := y.isLt; omega
@[simp] theorem fieldN_wordXYN (n1 : Nibble) (x y : Reg) (n : Nibble) : fieldN (wordXYN n1 x y n) = n := by
  apply BitVec.eq_of_toNat_eq; rw [fieldN_toNat, wordXYN_toNat]; have := n.isLt; omega

/-- The value of the word two fetched bytes make (R53). -/
theorem wordOfBytes_toNat (high low : Byte) : (wordOfBytes high low).toNat = high.toNat * 256 + low.toNat := by
  have := low.isLt
  simp only [wordOfBytes, BitVec.toNat_append]
  rw [← Nat.shiftLeft_add_eq_or_of_lt this, Nat.shiftLeft_eq]

/-- Laying a word out in bytes and reading it back gives the word (R53). -/
@[simp] theorem wordOfBytes_bytes (op : Word) : wordOfBytes (highByte op) (lowByte op) = op := by
  apply BitVec.eq_of_toNat_eq
  have := op.isLt
  rw [wordOfBytes_toNat]
  simp only [highByte, lowByte, BitVec.extractLsb'_toNat, Nat.shiftRight_eq_div_pow]
  omega

end Sys2Proof
end

