-- ==== Sys2Proof/Laws/Memory.lean ====
section
/-!
SUPPORT. The laws of memory: a read after a write, for one byte and for a run of bytes; every memory operation keeps the
canonical form; two canonical memories that read alike are equal.
-/
namespace Sys2Proof.Machine

@[simp] theorem Memory.read_nil (a : Nat) : Memory.read [] a = Memory.unlisted a := rfl

theorem Memory.read_cons (c : Host.Cell) (m : Memory) (a : Nat) :
    Memory.read (c :: m) a = if a = c.1 then c.2 else Memory.read m a := by
  obtain ⟨k, b⟩ := c
  by_cases h : a = k
  · subst h; simp [Memory.read]
  · simp [Memory.read, List.lookup, h, beq_false_of_ne h]

theorem Memory.read_insertCell (m : Memory) (c : Host.Cell) (a : Nat) (hc : ∀ d ∈ m, d.1 ≠ c.1) :
    Memory.read (Memory.insertCell c m) a = if a = c.1 then c.2 else Memory.read m a := by
  induction m with
  | nil => simp [Memory.insertCell, Memory.read_cons]
  | cons d m ih =>
    have hd : d.1 ≠ c.1 := hc d (by simp)
    have ih := ih fun e he => hc e (by simp [he])
    unfold Memory.insertCell
    split
    · simp [Memory.read_cons]
    · simp only [Memory.read_cons, ih]
      by_cases ha : a = d.1
      · subst ha; simp [hd]
      · simp [ha]

theorem Memory.read_erase (m : Memory) (a b : Nat) :
    Memory.read (m.filter (fun c => c.1 != a)) b = if b = a then Memory.unlisted b else Memory.read m b := by
  induction m with
  | nil => simp
  | cons d m ih =>
    by_cases hd : d.1 = a
    · simp only [List.filter_cons, hd, bne_self_eq_false, Bool.false_eq_true, if_false, ih, Memory.read_cons]
      split <;> simp_all
    · have : (d.1 != a) = true := by simpa using hd
      simp only [List.filter_cons, this, if_true, Memory.read_cons, ih]
      by_cases hb : b = d.1
      · subst hb; simp [hd]
      · simp [hb]

/-- A read after a write: the byte written at the address written, every other byte as before (R57). -/
@[simp] theorem Memory.read_write (m : Memory) (a : Nat) (b : Byte) (k : Nat) :
    Memory.read (Memory.write m a b) k = if k = a then b else Memory.read m k := by
  unfold Memory.write
  by_cases hb : b = Memory.unlisted a
  · simp only [hb, if_true, Memory.read_erase]
    split <;> simp_all
  · simp only [hb, if_false]
    rw [Memory.read_insertCell _ _ _ (by intro d hd; simpa using (List.mem_filter.mp hd).2), Memory.read_erase]
    split <;> simp_all

/-- A read after a run of bytes is written from `a` on. -/
theorem Memory.read_writeBytes (m : Memory) (a : Nat) (bs : List Byte) (k : Nat) :
    Memory.read (Memory.writeBytes m a bs) k =
      if h : a ≤ k ∧ k < a + bs.length then bs[k - a] else Memory.read m k := by
  induction bs generalizing m a with
  | nil => simp only [Memory.writeBytes, List.length_nil, Nat.add_zero]; rw [dif_neg (by omega)]
  | cons b bs ih =>
    simp only [Memory.writeBytes, ih, Memory.read_write]
    by_cases h1 : k = a
    · subst h1; simp
    · by_cases h2 : a + 1 ≤ k ∧ k < a + 1 + bs.length
      · have h3 : a ≤ k ∧ k < a + (b :: bs).length := by simp only [List.length_cons]; omega
        have h4 : k - a = (k - (a + 1)) + 1 := by omega
        simp only [h2, h3, and_self, dif_pos, h4, List.getElem_cons_succ]
      · have h3 : ¬ (a ≤ k ∧ k < a + (b :: bs).length) := by simp only [List.length_cons]; omega
        simp only [h2, h3, dif_neg, not_false_iff, h1, if_false]

/-- Outside the bytes written, a run of writes leaves memory as it was. -/
theorem Memory.read_writeBytes_of_outside (m : Memory) (a : Nat) (bs : List Byte) (k : Nat)
    (h : k < a ∨ a + bs.length ≤ k) : Memory.read (Memory.writeBytes m a bs) k = Memory.read m k := by
  rw [Memory.read_writeBytes, dif_neg]; omega

theorem Memory.mem_insertCell (m : Memory) (c e : Host.Cell) :
    e ∈ Memory.insertCell c m ↔ e = c ∨ e ∈ m := by
  induction m with
  | nil => simp [Memory.insertCell]
  | cons d m ih =>
    unfold Memory.insertCell
    split
    · simp
    · simp [ih]; tauto

theorem Memory.insertCell_pairwise (m : Memory) (c : Host.Cell) (hm : m.Pairwise (fun c d => c.1 < d.1))
    (hc : ∀ d ∈ m, d.1 ≠ c.1) : (Memory.insertCell c m).Pairwise (fun c d => c.1 < d.1) := by
  induction m with
  | nil => simp [Memory.insertCell]
  | cons d m ih =>
    obtain ⟨hd, hm⟩ := List.pairwise_cons.mp hm
    have hne : d.1 ≠ c.1 := hc d (by simp)
    unfold Memory.insertCell
    split
    · next h =>
      refine List.pairwise_cons.mpr ⟨fun e he => ?_, List.pairwise_cons.mpr ⟨hd, hm⟩⟩
      rcases List.mem_cons.mp he with rfl | he
      · exact h
      · exact h.trans (hd e he)
    · refine List.pairwise_cons.mpr ⟨fun e he => ?_, ih hm fun e he => hc e (by simp [he])⟩
      rcases (Memory.mem_insertCell m c e).mp he with rfl | h
      · omega
      · exact hd e h

/-- A write inside the address space keeps the canonical form. -/
theorem Memory.write_wf {m : Memory} (h : m.wf) {a : Nat} (ha : a < Config.memSize) (b : Byte) :
    (Memory.write m a b).wf := by
  have hp := h.1.filter (fun c => c.1 != a)
  unfold Memory.write
  by_cases hb : b = Memory.unlisted a
  · simp only [hb, if_true]
    exact ⟨hp, fun c hc => h.2 c (List.mem_filter.mp hc).1⟩
  · simp only [hb, if_false]
    refine ⟨Memory.insertCell_pairwise _ _ hp (by intro d hd; simpa using (List.mem_filter.mp hd).2), fun c hc => ?_⟩
    rcases (Memory.mem_insertCell _ _ _).mp hc with rfl | hc
    · exact ⟨ha, hb⟩
    · exact h.2 c (List.mem_filter.mp hc).1

/-- A run of writes inside the address space keeps the canonical form. -/
theorem Memory.writeBytes_wf {m : Memory} (h : m.wf) {a : Nat} {bs : List Byte}
    (ha : a + bs.length ≤ Config.memSize) : (Memory.writeBytes m a bs).wf := by
  induction bs generalizing m a with
  | nil => exact h
  | cons b bs ih =>
    simp only [List.length_cons] at ha
    exact ih (Memory.write_wf h (by omega) b) (by omega)

theorem Memory.nil_wf : Memory.wf ([] : Memory) := by simp [Memory.wf]

theorem Memory.read_of_mem {m : Memory} (h : m.Pairwise (fun c d => c.1 < d.1)) {c : Host.Cell} (hc : c ∈ m) :
    Memory.read m c.1 = c.2 := by
  induction m with
  | nil => simp at hc
  | cons d m ih =>
    obtain ⟨hd, hm⟩ := List.pairwise_cons.mp h
    rw [Memory.read_cons]
    rcases List.mem_cons.mp hc with rfl | hc
    · simp
    · have := hd c hc
      rw [if_neg (by omega), ih hm hc]

theorem Memory.read_of_not_mem {m : Memory} {a : Nat} (h : ∀ c ∈ m, c.1 ≠ a) :
    Memory.read m a = Memory.unlisted a := by
  induction m with
  | nil => rfl
  | cons d m ih =>
    rw [Memory.read_cons, if_neg (fun e => h d (by simp) e.symm), ih fun c hc => h c (by simp [hc])]

/-- Two canonical memories that read alike at every address are the same list. -/
theorem Memory.ext_of_wf {m n : Memory} (hm : m.wf) (hn : n.wf) (h : ∀ a, Memory.read m a = Memory.read n a) :
    m = n := by
  have sub : ∀ {m n : Memory}, m.wf → n.wf → (∀ a, Memory.read m a = Memory.read n a) → ∀ c ∈ m, c ∈ n := by
    intro m n hm hn h c hc
    by_cases hk : ∃ d ∈ n, d.1 = c.1
    · obtain ⟨d, hd, hdc⟩ := hk
      have h1 := Memory.read_of_mem hm.1 hc
      have h2 := Memory.read_of_mem hn.1 hd
      have : c = d := Prod.ext hdc.symm (by rw [← h1, ← h2, h, hdc])
      exact this ▸ hd
    · have h1 := Memory.read_of_mem hm.1 hc
      rw [h, Memory.read_of_not_mem (by intro d hd e; exact hk ⟨d, hd, e⟩)] at h1
      exact absurd h1.symm (hm.2 c hc).2
  have nd : ∀ {m : Memory}, m.Pairwise (fun c d => c.1 < d.1) → m.Nodup := fun hp =>
    hp.imp (fun {c d} h e => by rw [e] at h; omega)
  have perm : m.Perm n := (List.perm_ext_iff_of_nodup (nd hm.1) (nd hn.1)).mpr fun c =>
    ⟨sub hm hn h c, sub hn hm (fun a => (h a).symm) c⟩
  exact perm.eq_of_pairwise (le := fun (c d : Host.Cell) => c.1 < d.1) (fun c d _ _ h1 h2 => by omega) hm.1 hn.1

end Sys2Proof.Machine
end

