-- ==== Sys2Proof/Laws/Ops.lean ====
section
/-!
SUPPORT. What each shared operation can do, said once: push, pop, fetch, the range check, key indices, the choice among
pressed keys, the timer tick, and the end of a step.
-/
namespace Sys2Proof.Machine

/-- `push` answers exactly when SP is below 16; then entry SP holds the value, SP is one more, the rest is kept. -/
theorem State.push_eq_some {s t : State} {w : Word} (h : s.push w = some t) :
    ∃ hs : s.sp.val < 16,
      t = { s with stack := s.stack.set s.sp.val w, sp := ⟨s.sp.val + 1, by omega⟩ } := by
  unfold State.push at h
  split at h
  · next hs => exact ⟨hs, by simpa using h.symm⟩
  · simp at h

theorem State.push_eq_none {s : State} {w : Word} : s.push w = none ↔ s.sp = 16 := by
  unfold State.push
  have := s.sp.isLt
  split
  · next h => simp only [reduceCtorEq, false_iff]; intro e; rw [e] at h; simp at h
  · next h => simp only [true_iff]; apply Fin.ext; show s.sp.val = 16; omega

/-- `pop` answers exactly when SP is above 0: the entry below SP, SP one less, the rest kept. -/
theorem State.pop_eq_some {s t : State} {w : Word} (h : s.pop = some (w, t)) :
    ∃ hs : 0 < s.sp.val,
      w = s.stackAt ⟨s.sp.val - 1, by omega⟩ ∧ t = { s with sp := ⟨s.sp.val - 1, by omega⟩ } := by
  unfold State.pop at h
  split at h
  · next hs =>
    rw [Option.some.injEq, Prod.mk.injEq] at h
    exact ⟨hs, h.1.symm, h.2.symm⟩
  · simp at h

theorem State.pop_eq_none {s : State} : s.pop = none ↔ s.sp = 0 := by
  unfold State.pop
  split
  · next h => simp only [reduceCtorEq, false_iff]; intro e; rw [e] at h; simp at h
  · next h => simp only [true_iff]; apply Fin.ext; show s.sp.val = 0; omega

/-- A stack entry after `push` has written entry `k`. -/
theorem stackAt_set {s : State} {k : Nat} (hk : k < 16) (w : Word) (p : Word) (sp : Fin 17) (j : Fin 16) :
    State.stackAt { s with stack := s.stack.set k w, sp := sp, pc := p } j = if k = j.val then w else s.stackAt j := by
  simp [State.stackAt, Vector.getElem_set]

/-- The range check is the condition of R56. -/
theorem rangeExists_iff (i0 : Word) (n : Nat) : rangeExists i0 n = true ↔ n = 0 ∨ i0.toNat + n - 1 ≤ 0xFFF := by
  simp only [rangeExists, Bool.or_eq_true, beq_iff_eq, decide_eq_true_eq]
  simp only [dataAddr]
  omega

theorem firstBadAddr_toNat (i0 : Word) : (firstBadAddr i0).toNat = max i0.toNat 0x1000 := by
  unfold firstBadAddr
  split
  · next h => rw [Nat.max_eq_right (by omega)]; rfl
  · next h => rw [Nat.max_eq_left (by omega)]

theorem keyIndex_eq_some {b : Byte} {k : Reg} : keyIndex b = some k ↔ b.toNat = k.val := by
  unfold keyIndex
  split
  · simp [Fin.ext_iff]
  · next h => simp only [reduceCtorEq, false_iff]; omega

theorem keyIndex_eq_none {b : Byte} : keyIndex b = none ↔ 0xF < b.toNat := by
  unfold keyIndex
  split
  · next h => simp only [reduceCtorEq, false_iff]; omega
  · next h => simp only [true_iff]; omega

theorem mem_pressedKeys {key : Keys} {k : Reg} : k ∈ pressedKeys key ↔ key[k.val] = true := by
  simp [pressedKeys]

/-- KeyPick returns one of the pressed keys, whatever the free choice is (R164). -/
theorem pickKey_mem {pressed : List Reg} (h : pressed ≠ []) (choice : Nat) : pickKey pressed choice ∈ pressed := by
  match pressed, h with
  | [k], _ => simp [pickKey]
  | k :: l :: ks, _ =>
    have hlt : choice % (k :: l :: ks).length < (k :: l :: ks).length := Nat.mod_lt _ (by simp)
    simp only [pickKey, List.getD_eq_getElem?_getD, List.getElem?_eq_getElem hlt, Option.getD_some]
    exact List.getElem_mem hlt

/-- A tick lowers a timer by one and stops at 0 (R36). -/
theorem tickDown_toNat (t : Byte) : (tickDown t).toNat = t.toNat - 1 := by
  unfold tickDown
  split
  · next h => subst h; rfl
  · next h =>
    have : t.toNat ≠ 0 := fun e => h (BitVec.eq_of_toNat_eq e)
    have := t.isLt
    rw [BitVec.toNat_sub]; simp; omega

/-- The fetched word, when there is one (R35). -/
theorem State.fetch_eq_some {s : State} {op : Word} : s.fetch = some op ↔
    s.pc.toNat ≤ 0xFFE ∧ wordOfBytes (s.mem.read s.pc.toNat) (s.mem.read (s.pc.toNat + 1)) = op := by
  unfold State.fetch
  split <;> simp_all

theorem State.fetch_eq_none {s : State} : s.fetch = none ↔ 0xFFE < s.pc.toNat := by
  unfold State.fetch
  split <;> simp_all

/-- A fetch depends on PC and memory alone. -/
theorem State.fetch_congr {s t : State} (hp : t.pc = s.pc) (hm : t.mem = s.mem) : t.fetch = s.fetch := by
  simp [State.fetch, hp, hm]

end Sys2Proof.Machine
end

