-- ==== Sys2Proof/Laws/IndexMemory.lean ====
section
/-!
SUPPORT. What the stores and the load of spec/42_index_memory.md read as afterwards.
-/
namespace Sys2Proof.Machine

/-- The bytes FX55 stores are V0 to VX: X + 1 of them. -/
theorem storedRegs_length (s : State) (x : Reg) : (s.v.toList.take (x.val + 1)).length = x.val + 1 := by
  have := x.isLt
  rw [List.length_take, Vector.length_toList]; omega

/-- Memory after FX55: V[k] at I + k for k up to X, every other byte as before (R144). -/
theorem read_storedRegs (s : State) (x : Reg) (a : Nat) :
    Memory.read (Memory.writeBytes s.mem (dataAddr s.i 0) (s.v.toList.take (x.val + 1))) a =
      if h : s.i.toNat ≤ a ∧ a ≤ s.i.toNat + x.val then s.reg ⟨a - s.i.toNat, by have := x.isLt; omega⟩
      else Memory.read s.mem a := by
  have hlen := storedRegs_length s x
  rw [Memory.read_writeBytes]
  by_cases h : s.i.toNat ≤ a ∧ a ≤ s.i.toNat + x.val
  · have h' : dataAddr s.i 0 ≤ a ∧ a < dataAddr s.i 0 + (s.v.toList.take (x.val + 1)).length := by
      rw [hlen]; simp only [dataAddr]; omega
    rw [dif_pos h', dif_pos h]
    simp [dataAddr, State.reg]
  · have h' : ¬ (dataAddr s.i 0 ≤ a ∧ a < dataAddr s.i 0 + (s.v.toList.take (x.val + 1)).length) := by
      rw [hlen]; simp only [dataAddr]; omega
    rw [dif_neg h', dif_neg h]

/-- Memory after FX33: the three digits at I, I + 1, I + 2, every other byte as before (R143). -/
theorem read_storedDigits (s : State) (b : Byte) (a : Nat) :
    Memory.read (Memory.writeBytes s.mem (dataAddr s.i 0) (decimalDigits b)) a =
      if a = s.i.toNat then BitVec.ofNat 8 (b.toNat / 100)
      else if a = s.i.toNat + 1 then BitVec.ofNat 8 (b.toNat / 10 % 10)
      else if a = s.i.toNat + 2 then BitVec.ofNat 8 (b.toNat % 10)
      else Memory.read s.mem a := by
  simp only [decimalDigits, Memory.writeBytes, Memory.read_write, dataAddr, Nat.add_zero]
  have h2 : s.i.toNat + 1 + 1 = s.i.toNat + 2 := rfl
  rw [h2]
  (repeat' split) <;> first | rfl | omega

/-- The registers after FX65 (R145). -/
theorem reg_loadedRegs (s : State) (x q : Reg) :
    State.reg { s with v := loadedRegs x s } q =
      if q ≤ x then Memory.read s.mem (dataAddr s.i q.val) else s.reg q := by
  simp [State.reg, loadedRegs]

end Sys2Proof.Machine
end

