-- ==== Sys2Proof/Laws/PerInstr.lean ====
section
/-!
SUPPORT. Statements made instruction by instruction: the word of every instruction matches its own row of the opcode map
(spec/30_encoding.md R74).
-/
namespace Sys2Proof.Laws.EncodesKnownWord

/-- The word of `i` matches the row of R74 that `i` belongs to. -/
def Statement (i : Instr) : Prop := (opcodeMap[i.row.val]'(i.row.isLt)).matches (encode i) = true

theorem and_F (n : Nibble) : n &&& 0xF#4 = n := BitVec.and_allOnes
theorem and_0 {w : Nat} (n : BitVec w) : n &&& 0#w = 0#w := BitVec.and_zero
theorem and_FF (n : Byte) : n &&& 0xFF#8 = n := BitVec.and_allOnes

theorem append_congr {w v : Nat} {a a' : BitVec w} {b b' : BitVec v} (h : a = a') (h' : b = b') :
    a ++ b = a' ++ b' := by rw [h, h']

theorem mask_nnn (n1 : Nibble) (nnn : Addr12) : wordNNN n1 nnn &&& 0xF000 = wordNNN n1 0 :=
  (BitVec.and_append (x₁ := n1) (y₁ := nnn) (x₂ := 0xF#4) (y₂ := 0#12)).trans
    (append_congr (and_F n1) (and_0 nnn))

theorem mask_xnn (n1 : Nibble) (x : Reg) (nn : Byte) : wordXNN n1 x nn &&& 0xF000 = wordXNN n1 0 0 :=
  (BitVec.and_append (x₁ := n1 ++ (BitVec.ofFin x : Nibble)) (y₁ := nn) (x₂ := 0xF#4 ++ 0#4) (y₂ := 0#8)).trans
    (append_congr (BitVec.and_append.trans (append_congr (and_F n1) (and_0 _))) (and_0 nn))

theorem mask_xff (n1 : Nibble) (x : Reg) (nn : Byte) : wordXNN n1 x nn &&& 0xF0FF = wordXNN n1 0 nn :=
  (BitVec.and_append (x₁ := n1 ++ (BitVec.ofFin x : Nibble)) (y₁ := nn) (x₂ := 0xF#4 ++ 0#4) (y₂ := 0xFF#8)).trans
    (append_congr (BitVec.and_append.trans (append_congr (and_F n1) (and_0 _))) (and_FF nn))

theorem mask_xyn (n1 : Nibble) (x y : Reg) (n : Nibble) : wordXYN n1 x y n &&& 0xF00F = wordXYN n1 0 0 n :=
  (BitVec.and_append (x₁ := n1 ++ (BitVec.ofFin x : Nibble) ++ (BitVec.ofFin y : Nibble)) (y₁ := n)
      (x₂ := 0xF#4 ++ 0#4 ++ 0#4) (y₂ := 0xF#4)).trans
    (append_congr (BitVec.and_append.trans (append_congr
      (BitVec.and_append.trans (append_congr (and_F n1) (and_0 _))) (and_0 _))) (and_F n))

theorem mask_dxyn (n1 : Nibble) (x y : Reg) (n : Nibble) : wordXYN n1 x y n &&& 0xF000 = wordXYN n1 0 0 0 :=
  (BitVec.and_append (x₁ := n1 ++ (BitVec.ofFin x : Nibble) ++ (BitVec.ofFin y : Nibble)) (y₁ := n)
      (x₂ := 0xF#4 ++ 0#4 ++ 0#4) (y₂ := 0#4)).trans
    (append_congr (BitVec.and_append.trans (append_congr
      (BitVec.and_append.trans (append_congr (and_F n1) (and_0 _))) (and_0 _))) (and_0 n))

/-- A word matches a row when masking it gives the row's pattern (R73). -/
theorem matches_of {mask pattern op masked : Word} (h : op &&& mask = masked) (h' : masked = pattern) :
    OpcodeRow.matches ⟨mask, pattern⟩ op = true := by
  simp [OpcodeRow.matches, h, h']

theorem cls : Statement .cls := by unfold Statement; decide
theorem ret : Statement .ret := by unfold Statement; decide
theorem jp (nnn : Addr12) : Statement (.jp nnn) := matches_of (mask_nnn _ _) (by decide)
theorem call (nnn : Addr12) : Statement (.call nnn) := matches_of (mask_nnn _ _) (by decide)
theorem seImm (x : Reg) (nn : Byte) : Statement (.seImm x nn) := matches_of (mask_xnn _ _ _) (by decide)
theorem sneImm (x : Reg) (nn : Byte) : Statement (.sneImm x nn) := matches_of (mask_xnn _ _ _) (by decide)
theorem seReg (x y : Reg) : Statement (.seReg x y) := matches_of (mask_xyn _ _ _ _) (by decide)
theorem ldImm (x : Reg) (nn : Byte) : Statement (.ldImm x nn) := matches_of (mask_xnn _ _ _) (by decide)
theorem addImm (x : Reg) (nn : Byte) : Statement (.addImm x nn) := matches_of (mask_xnn _ _ _) (by decide)
theorem ldReg (x y : Reg) : Statement (.ldReg x y) := matches_of (mask_xyn _ _ _ _) (by decide)
theorem orReg (x y : Reg) : Statement (.orReg x y) := matches_of (mask_xyn _ _ _ _) (by decide)
theorem andReg (x y : Reg) : Statement (.andReg x y) := matches_of (mask_xyn _ _ _ _) (by decide)
theorem xorReg (x y : Reg) : Statement (.xorReg x y) := matches_of (mask_xyn _ _ _ _) (by decide)
theorem addReg (x y : Reg) : Statement (.addReg x y) := matches_of (mask_xyn _ _ _ _) (by decide)
theorem subReg (x y : Reg) : Statement (.subReg x y) := matches_of (mask_xyn _ _ _ _) (by decide)
theorem shr (x y : Reg) : Statement (.shr x y) := matches_of (mask_xyn _ _ _ _) (by decide)
theorem subnReg (x y : Reg) : Statement (.subnReg x y) := matches_of (mask_xyn _ _ _ _) (by decide)
theorem shl (x y : Reg) : Statement (.shl x y) := matches_of (mask_xyn _ _ _ _) (by decide)
theorem sneReg (x y : Reg) : Statement (.sneReg x y) := matches_of (mask_xyn _ _ _ _) (by decide)
theorem ldI (nnn : Addr12) : Statement (.ldI nnn) := matches_of (mask_nnn _ _) (by decide)
theorem jpV0 (nnn : Addr12) : Statement (.jpV0 nnn) := matches_of (mask_nnn _ _) (by decide)
theorem rnd (x : Reg) (nn : Byte) : Statement (.rnd x nn) := matches_of (mask_xnn _ _ _) (by decide)
theorem drw (x y n : Fin 16) : Statement (.drw x y n) := matches_of (mask_dxyn _ _ _ _) (by decide)
theorem skp (x : Reg) : Statement (.skp x) := matches_of (mask_xff _ _ _) (by decide)
theorem sknp (x : Reg) : Statement (.sknp x) := matches_of (mask_xff _ _ _) (by decide)
theorem ldVxDt (x : Reg) : Statement (.ldVxDt x) := matches_of (mask_xff _ _ _) (by decide)
theorem ldDtVx (x : Reg) : Statement (.ldDtVx x) := matches_of (mask_xff _ _ _) (by decide)
theorem ldStVx (x : Reg) : Statement (.ldStVx x) := matches_of (mask_xff _ _ _) (by decide)
theorem addI (x : Reg) : Statement (.addI x) := matches_of (mask_xff _ _ _) (by decide)
theorem ldF (x : Reg) : Statement (.ldF x) := matches_of (mask_xff _ _ _) (by decide)
theorem ldB (x : Reg) : Statement (.ldB x) := matches_of (mask_xff _ _ _) (by decide)
theorem storeRegs (x : Reg) : Statement (.storeRegs x) := matches_of (mask_xff _ _ _) (by decide)
theorem loadRegs (x : Reg) : Statement (.loadRegs x) := matches_of (mask_xff _ _ _) (by decide)
theorem waitKey (x : Reg) : Statement (.waitKey x) := matches_of (mask_xff _ _ _) (by decide)

end Sys2Proof.Laws.EncodesKnownWord
end

