-- ==== Sys2Proof/Laws/Step.lean ====
section
/-!
SUPPORT. What a step can do, said once: the four cases of R35, and the end of a step.
-/
namespace Sys2Proof.Machine

/-- The four ways a step can go (R35): halted, fetch fault, unknown word, or the decoded instruction executed and the
step ended. -/
theorem step_cases (s : State) :
    (s.fault.isSome = true ∧ step s = .next s) ∨
    (s.fault = none ∧ 0xFFE < s.pc.toNat ∧ step s = .next (fetchFault s)) ∨
    (∃ op, s.fault = none ∧ s.fetch = some op ∧ decode op = none ∧ step s = .next (unknownFault op s)) ∨
    (∃ op i, s.fault = none ∧ s.fetch = some op ∧ decode op = some i ∧ step s = afterExec (exec i s)) := by
  by_cases hf : s.fault.isSome = true
  · exact .inl ⟨hf, by simp [step, hf]⟩
  · have hn : s.fault = none := by simpa using hf
    cases hw : s.fetch with
    | none => exact .inr (.inl ⟨hn, State.fetch_eq_none.mp hw, by simp [step, hn, hw]⟩)
    | some op =>
      cases hd : decode op with
      | none => exact .inr (.inr (.inl ⟨op, hn, rfl, hd, by simp [step, hn, hw, hd]⟩))
      | some i => exact .inr (.inr (.inr ⟨op, i, hn, rfl, hd, by simp [step, hn, hw, hd]⟩))

/-- An unlatched machine whose fetched word decodes runs that instruction. -/
theorem step_of_decode {s : State} {op : Word} {i : Instr} (hn : s.fault = none) (hw : s.fetch = some op)
    (hd : decode op = some i) : step s = afterExec (exec i s) := by
  simp [step, hn, hw, hd]

theorem endStep_of_fault {s : State} (h : s.fault ≠ none) : endStep s = s := by
  simp [endStep, Option.isSome_iff_ne_none, h]

theorem endStep_of_ok {s : State} (h : s.fault = none) : endStep s = s.tick := by
  simp [endStep, h]

end Sys2Proof.Machine
end

