-- ==== Sys2Proof/Tests/Slice0.lean ====
section
/-!
SUPPORT. The model's own tests. Every expected value is from spec/95_test_vectors.md (the table is named at each group) or
worked out by hand from the rule named. Then, for every statement with hypotheses, a witness that meets them.
-/
namespace Sys2Proof.Tests

open Sys2Proof Sys2Proof.Machine

/-! ### Helpers -/

/-- The reset state with some registers set. -/
def regs (l : List (Reg × Byte)) : State := l.foldl (fun s p => s.setReg p.1 p.2) State.reset

/-- Some bytes stored from an address on. -/
def bytesAt (a : Nat) (bs : List Byte) (s : State) : State := { s with mem := s.mem.writeBytes a bs }

/-- Some pixels set. -/
def lit (l : List (Fin 64 × Fin 32)) (s : State) : State :=
  { s with fb := l.foldl (fun d p => Display.flip d p.1 p.2) s.fb }

/-- Only key `k` pressed. -/
def pressed (k : Reg) (s : State) : State := { s with key := (Vector.replicate 16 false).set k.val true }

/-- The state after one step that fetches the word `op` at PC. -/
def after (op : Nat) (s : State) : State := hostStep (s.withFetchWord 16 op)

/-- A fault's cause, address and word. -/
def latch (s : State) : Option (Fault × Word × Option Word) := s.fault.map fun f => (f.cause, f.pc, f.op)

/-- Every word of a list is refused by both checks of words. -/
def illFormed (ops : List Word) : Bool := ops.all fun op => !wellFormedWord op && unknownWord op

/-! ### Decoding: words written out bit by bit from the formats of R71 and the rows of R74 -/

theorem test_decode_control :
    decode (0b0000#4 ++ 0b0000#4 ++ 0b1110#4 ++ 0b0000#4) = some .cls ∧
    decode (0b0000#4 ++ 0b0000#4 ++ 0b1110#4 ++ 0b1110#4) = some .ret ∧
    decode (0b0001#4 ++ 0b1010#4 ++ 0b1011#4 ++ 0b1100#4) = some (.jp 0xABC) ∧
    decode (0b0010#4 ++ 0b0011#4 ++ 0b0100#4 ++ 0b0101#4) = some (.call 0x345) ∧
    decode (0b1011#4 ++ 0b0011#4 ++ 0b0000#4 ++ 0b0001#4) = some (.jpV0 0x301) := by decide

theorem test_decode_skips :
    decode (0b0011#4 ++ 0b1010#4 ++ 0b0000#4 ++ 0b0101#4) = some (.seImm 0xA 0x05) ∧
    decode (0b0100#4 ++ 0b1011#4 ++ 0b1110#4 ++ 0b0001#4) = some (.sneImm 0xB 0xE1) ∧
    decode (0b0101#4 ++ 0b0001#4 ++ 0b0010#4 ++ 0b0000#4) = some (.seReg 1 2) ∧
    decode (0b1001#4 ++ 0b1100#4 ++ 0b0011#4 ++ 0b0000#4) = some (.sneReg 0xC 3) := by decide

theorem test_decode_load_and_logic :
    decode (0b0110#4 ++ 0b1010#4 ++ 0b0111#4 ++ 0b1011#4) = some (.ldImm 0xA 0x7B) ∧
    decode (0b0111#4 ++ 0b0000#4 ++ 0b1111#4 ++ 0b1110#4) = some (.addImm 0 0xFE) ∧
    decode (0b1000#4 ++ 0b0001#4 ++ 0b0010#4 ++ 0b0000#4) = some (.ldReg 1 2) ∧
    decode (0b1000#4 ++ 0b0011#4 ++ 0b0100#4 ++ 0b0001#4) = some (.orReg 3 4) ∧
    decode (0b1000#4 ++ 0b0101#4 ++ 0b0110#4 ++ 0b0010#4) = some (.andReg 5 6) ∧
    decode (0b1000#4 ++ 0b0111#4 ++ 0b1000#4 ++ 0b0011#4) = some (.xorReg 7 8) := by decide

theorem test_decode_flag_writers :
    decode (0b1000#4 ++ 0b1111#4 ++ 0b0011#4 ++ 0b0100#4) = some (.addReg 0xF 3) ∧
    decode (0b1000#4 ++ 0b0001#4 ++ 0b1111#4 ++ 0b0101#4) = some (.subReg 1 0xF) ∧
    decode (0b1000#4 ++ 0b0001#4 ++ 0b0010#4 ++ 0b0110#4) = some (.shr 1 2) ∧
    decode (0b1000#4 ++ 0b1001#4 ++ 0b1010#4 ++ 0b0111#4) = some (.subnReg 9 0xA) ∧
    decode (0b1000#4 ++ 0b0001#4 ++ 0b0010#4 ++ 0b1110#4) = some (.shl 1 2) := by decide

theorem test_decode_index_and_display :
    decode (0b1010#4 ++ 0b0010#4 ++ 0b1111#4 ++ 0b0000#4) = some (.ldI 0x2F0) ∧
    decode (0b1101#4 ++ 0b0001#4 ++ 0b0010#4 ++ 0b0101#4) = some (.drw 1 2 5) ∧
    decode (0b1111#4 ++ 0b0010#4 ++ 0b0001#4 ++ 0b1110#4) = some (.addI 2) ∧
    decode (0b1111#4 ++ 0b0011#4 ++ 0b0010#4 ++ 0b1001#4) = some (.ldF 3) ∧
    decode (0b1111#4 ++ 0b0100#4 ++ 0b0011#4 ++ 0b0011#4) = some (.ldB 4) ∧
    decode (0b1111#4 ++ 0b0010#4 ++ 0b0101#4 ++ 0b0101#4) = some (.storeRegs 2) ∧
    decode (0b1111#4 ++ 0b0010#4 ++ 0b0110#4 ++ 0b0101#4) = some (.loadRegs 2) := by decide

theorem test_decode_random_key_timer :
    decode (0b1100#4 ++ 0b0011#4 ++ 0b0000#4 ++ 0b1111#4) = some (.rnd 3 0x0F) ∧
    decode (0b1110#4 ++ 0b0001#4 ++ 0b1001#4 ++ 0b1110#4) = some (.skp 1) ∧
    decode (0b1110#4 ++ 0b0001#4 ++ 0b1010#4 ++ 0b0001#4) = some (.sknp 1) ∧
    decode (0b1111#4 ++ 0b0010#4 ++ 0b0000#4 ++ 0b0111#4) = some (.ldVxDt 2) ∧
    decode (0b1111#4 ++ 0b0011#4 ++ 0b0000#4 ++ 0b1010#4) = some (.waitKey 3) ∧
    decode (0b1111#4 ++ 0b0010#4 ++ 0b0001#4 ++ 0b0101#4) = some (.ldDtVx 2) ∧
    decode (0b1111#4 ++ 0b0010#4 ++ 0b0001#4 ++ 0b1000#4) = some (.ldStVx 2) := by decide

/-- The encoder on words of the spec, one per format (R71, table 2). -/
theorem test_encode_formats :
    encode .cls = 0x00E0 ∧ encode (.call 0x300) = 0x2300 ∧ encode (.seImm 0xA 5) = 0x3A05 ∧
    encode (.shl 1 2) = 0x812E ∧ encode (.drw 1 2 5) = 0xD125 ∧ encode (.storeRegs 0xF) = 0xFF55 := by decide

/-- The bytes of a word: the byte at the lower address is the high byte (R53, table 2.2). -/
theorem test_decode_bytes :
    (decodeBytes [0x12, 0x34, 0x56] = .ok (.jp 0x234, [0x56]) ∧
      decodeBytes [0x50, 0x01] = .error (.unknownOpcode 0x5001) ∧ decodeBytes [0x12] = .error .tooFewBytes) := by
  refine ⟨rfl, rfl, rfl⟩

theorem test_decode_table_word :
    decodeTableWord 16 0x00E0 = some .cls ∧ decodeTableWord 16 0xD125 = some (.drw 1 2 5) ∧
    decodeTableWord 16 0x5001 = none ∧ decodeTableWord 8 0xFFE0 = some .cls := by
  decide

/-! ### Well-formedness: an ill-formed word for each case of R78 (table 2.1), and its neighbour that is well formed -/

theorem test_ill_formed_zero :
    illFormed [0x0000, 0x00E1, 0x00EF, 0x01E0, 0x0123] = true ∧
    wellFormedWord 0x00E0 = true ∧ wellFormedWord 0x00EE = true := by decide

theorem test_ill_formed_last_nibble :
    illFormed [0x5001, 0x9121, 0x8128, 0x8129, 0x812D, 0x812F] = true ∧
    wellFormedWord 0x5120 = true ∧ wellFormedWord 0x9120 = true ∧ wellFormedWord 0x812E = true := by decide

theorem test_ill_formed_low_byte :
    illFormed [0xE19F, 0xE100, 0xF1FF, 0xF106, 0xFFFF] = true ∧
    wellFormedWord 0xE19E = true ∧ wellFormedWord 0xE1A1 = true ∧ wellFormedWord 0xF165 = true := by decide

/-- An unknown word faults, records itself, and PC stays (S11). -/
theorem test_unknown_word_faults :
    latch (after 0x5001 State.reset) = some (.unknownOpcode 0x5001, 0x200, some 0x5001) ∧
    (after 0x5001 State.reset).pc = 0x200 := by decide

/-! ### Control transfer (table 2.3) -/

/-- A jump to 0x300 from a state whose stack holds the call at 0x204. -/
def called : State := { State.reset with pc := 0x300, sp := 1, stack := (Vector.replicate 16 0).set 0 0x204 }

theorem test_ret_resumes : (after 0x00EE called).pc = 0x206 ∧ (after 0x00EE called).sp = 0 ∧
    (after 0x00EE called).stackAt 0 = 0x204 := by decide

theorem test_ret_underflow :
    latch (after 0x00EE State.reset) = some (.stackUnderflow 0, 0x200, some 0x00EE) := by decide

theorem test_jp : (after 0x1ABC State.reset).pc = 0xABC := by decide

theorem test_call_pushes : (after 0x2300 { State.reset with pc := 0x204, sp := 15 }).stackAt 15 = 0x204 ∧
    (after 0x2300 { State.reset with pc := 0x204, sp := 15 }).sp = 16 ∧
    (after 0x2300 { State.reset with pc := 0x204, sp := 15 }).pc = 0x300 := by decide

theorem test_call_overflow : latch (after 0x2300 { State.reset with pc := 0x204, sp := 16 }) =
    some (.stackOverflow 16, 0x204, some 0x2300) := by decide

theorem test_jp_v0 : (after 0xBFFF (regs [(0, 0xFF)])).pc = 0x10FE := by decide

theorem test_se_imm : (after 0x3A05 (regs [(0xA, 5)])).pc = 0x204 ∧ (after 0x3A05 (regs [(0xA, 6)])).pc = 0x202 := by
  decide

theorem test_sne_imm : (after 0x4A05 (regs [(0xA, 5)])).pc = 0x202 ∧ (after 0x4A05 (regs [(0xA, 6)])).pc = 0x204 := by
  decide

theorem test_se_reg : (after 0x5120 (regs [(1, 7), (2, 7)])).pc = 0x204 ∧
    (after 0x5120 (regs [(1, 7), (2, 8)])).pc = 0x202 := by decide

theorem test_sne_reg : (after 0x9120 (regs [(1, 7), (2, 7)])).pc = 0x202 ∧
    (after 0x9120 (regs [(1, 7), (2, 8)])).pc = 0x204 := by decide

/-! ### Register load and the ALU (table 2.4) -/

theorem test_ld_imm : (after 0x6A7B State.reset).reg 0xA = 0x7B ∧ (after 0x6A7B State.reset).pc = 0x202 := by decide

theorem test_add_imm_wraps : (after 0x7001 (regs [(0, 0xFF), (0xF, 1)])).reg 0 = 0 ∧
    (after 0x7001 (regs [(0, 0xFF), (0xF, 1)])).reg 0xF = 1 := by decide

theorem test_ld_reg : (after 0x8120 (regs [(2, 0x33)])).reg 1 = 0x33 := by decide

theorem test_or : (after 0x8121 (regs [(1, 0xF0), (2, 0x0F), (0xF, 1)])).reg 1 = 0xFF ∧
    (after 0x8121 (regs [(1, 0xF0), (2, 0x0F), (0xF, 1)])).reg 0xF = 1 := by decide

theorem test_and : (after 0x8122 (regs [(1, 0xF3), (2, 0x3F), (0xF, 1)])).reg 1 = 0x33 := by decide

theorem test_xor : (after 0x8123 (regs [(1, 0xFF), (2, 0x0F), (0xF, 1)])).reg 1 = 0xF0 := by decide

theorem test_add_carry : (after 0x8124 (regs [(1, 0xFF), (2, 1)])).reg 1 = 0 ∧
    (after 0x8124 (regs [(1, 0xFF), (2, 1)])).reg 0xF = 1 ∧
    (after 0x8124 (regs [(1, 0xFE), (2, 1), (0xF, 1)])).reg 0xF = 0 := by decide

theorem test_add_vf : (after 0x8F34 (regs [(3, 0x64), (0xF, 0xC8)])).reg 0xF = 0x2C ∧
    (after 0x83F4 (regs [(3, 0x64), (0xF, 0xC8)])).reg 3 = 0x2C ∧
    (after 0x83F4 (regs [(3, 0x64), (0xF, 0xC8)])).reg 0xF = 1 := by decide

theorem test_sub_borrow : (after 0x8125 (regs [(1, 1), (2, 2), (0xF, 1)])).reg 1 = 0xFF ∧
    (after 0x8125 (regs [(1, 1), (2, 2), (0xF, 1)])).reg 0xF = 0 ∧
    (after 0x8125 (regs [(1, 7), (2, 7)])).reg 0xF = 1 := by decide

theorem test_sub_vf : (after 0x8F35 (regs [(3, 0x64), (0xF, 0xC8)])).reg 0xF = 0x64 ∧
    (after 0x83F5 (regs [(3, 0x64), (0xF, 0xC8)])).reg 3 = 0x9C := by decide

theorem test_shr : (after 0x8126 (regs [(1, 0x05), (2, 0xFF)])).reg 1 = 2 ∧
    (after 0x8126 (regs [(1, 0x05), (2, 0xFF)])).reg 0xF = 1 ∧
    (after 0x8F06 (regs [(0xF, 0x81)])).reg 0xF = 0x40 := by decide

theorem test_subn : (after 0x8127 (regs [(1, 5), (2, 2), (0xF, 1)])).reg 1 = 0xFD ∧
    (after 0x8127 (regs [(1, 5), (2, 2), (0xF, 1)])).reg 0xF = 0 ∧
    (after 0x8F37 (regs [(3, 0x64), (0xF, 0xC8)])).reg 0xF = 0x9C := by decide

theorem test_shl_flag_is_bit_zero : (after 0x812E (regs [(1, 0x80), (2, 0xFF), (0xF, 1)])).reg 1 = 0 ∧
    (after 0x812E (regs [(1, 0x80), (2, 0xFF), (0xF, 1)])).reg 0xF = 0 ∧
    (after 0x812E (regs [(1, 0x01), (2, 0x00)])).reg 0xF = 1 := by decide

/-! ### Index register, stores and loads (table 2.5) -/

theorem test_ld_i : (after 0xA2F0 State.reset).i = 0x2F0 := by decide

theorem test_add_i : (after 0xF21E { regs [(2, 1)] with i := 0xFFF }).i = 0x1000 ∧
    (after 0xF21E { regs [(2, 1)] with i := 0xFFFF }).i = 0 := by decide

theorem test_ld_f : (after 0xF329 (regs [(3, 0xFF)])).i = 0x4FB := by decide

theorem test_ld_b : (after 0xF433 { regs [(4, 0xFF)] with i := 0xFFD }).mem.read 0xFFD = 2 ∧
    (after 0xF433 { regs [(4, 0xFF)] with i := 0xFFD }).mem.read 0xFFE = 5 ∧
    (after 0xF433 { regs [(4, 0xFF)] with i := 0xFFD }).mem.read 0xFFF = 5 := by decide

theorem test_ld_b_fault : latch (after 0xF433 { regs [(4, 0xFF)] with i := 0xFFE }) =
    some (.addressOutOfRange .data 0x1000, 0x200, some 0xF433) ∧
    (after 0xF433 { regs [(4, 0xFF)] with i := 0xFFE }).mem.read 0xFFE = 0 := by decide

/-- V0 to V3 as in table 2.5, I = 0x400. -/
def four : State := { regs [(0, 0x11), (1, 0x22), (2, 0x33), (3, 0x44)] with i := 0x400 }

theorem test_store_regs : (after 0xF255 four).mem.read 0x400 = 0x11 ∧ (after 0xF255 four).mem.read 0x402 = 0x33 ∧
    (after 0xF255 four).mem.read 0x403 = 0 ∧ (after 0xF255 four).i = 0x400 := by decide

theorem test_store_regs_fault : latch (after 0xF155 { four with i := 0xFFF }) =
    some (.addressOutOfRange .data 0x1000, 0x200, some 0xF155) := by decide

theorem test_load_regs :
    let s := bytesAt 0x400 [0x11, 0x22, 0x33, 0x44] { regs [(3, 0x99)] with i := 0x400 }
    (after 0xF265 s).reg 0 = 0x11 ∧ (after 0xF265 s).reg 2 = 0x33 ∧ (after 0xF265 s).reg 3 = 0x99 := by decide

theorem test_load_regs_fault : latch (after 0xF065 { State.reset with i := 0x1234 }) =
    some (.addressOutOfRange .data 0x1234, 0x200, some 0xF065) := by decide

/-! ### Random byte, keypad, timers (table 2.6) -/

/-- The byte drawn is an argument of `rndWith`, so the vectors of the table can be checked; the step's own byte is free. -/
theorem test_rnd : (rndWith 0xA7 3 0x0F State.reset).reg 3 = 7 ∧ (rndWith 0xA7 3 0x0F State.reset).pc = 0x202 := by decide

theorem test_rnd_step : (after 0xC30F State.reset).pc = 0x202 ∧ (after 0xC30F State.reset).draws = 1 := by decide

theorem test_skp : (after 0xE19E (pressed 0xA (regs [(1, 0xA)]))).pc = 0x204 ∧
    (after 0xE19E (regs [(1, 0xA)])).pc = 0x202 := by decide

theorem test_skp_fault : latch (after 0xE19E (pressed 0xA (regs [(1, 0x1A)]))) =
    some (.keyIndexOutOfRange 0x1A, 0x200, some 0xE19E) := by decide

theorem test_sknp : (after 0xE1A1 (pressed 0xA (regs [(1, 0xA)]))).pc = 0x202 ∧
    (after 0xE1A1 (regs [(1, 0xA)])).pc = 0x204 := by decide

theorem test_sknp_fault : latch (after 0xE1A1 (regs [(1, 0xFF)])) =
    some (.keyIndexOutOfRange 0xFF, 0x200, some 0xE1A1) := by decide

theorem test_ld_vx_dt : (after 0xF207 { State.reset with dt := 0x10 }).reg 2 = 0x10 ∧
    (after 0xF207 { State.reset with dt := 0x10 }).dt = 0x0F := by decide

theorem test_ld_dt : (after 0xF215 (regs [(2, 5)])).dt = 4 ∧
    (after 0xF215 { State.reset with dt := 9 }).dt = 0 := by decide

theorem test_ld_st : (after 0xF218 (regs [(2, 3)])).st = 2 := by decide

theorem test_wait_key_stalls :
    let s := { regs [(3, 0x55)] with dt := 3, st := 1 }
    (after 0xF30A s).pc = 0x200 ∧ (after 0xF30A s).reg 3 = 0x55 ∧ (after 0xF30A s).dt = 2 ∧ (after 0xF30A s).st = 0 := by
  decide

theorem test_wait_key_takes : (after 0xF30A (pressed 7 State.reset)).reg 3 = 7 ∧
    (after 0xF30A (pressed 7 State.reset)).pc = 0x202 := by decide

/-- A fault does not tick (table 2.6, last row). -/
theorem test_fault_does_not_tick : (after 0x00EE { State.reset with dt := 5 }).dt = 5 := by decide

/-! ### Display (table 2.7) -/

theorem test_cls :
    let s := lit [(0, 0), (0x3F, 0x1F)] (regs [(0xF, 7)])
    Display.pixel s.fb 0x3F 0x1F = true ∧ Display.pixel (after 0x00E0 s).fb 0x3F 0x1F = false ∧
    (after 0x00E0 s).rf = true ∧ (after 0x00E0 s).reg 0xF = 7 := by decide +kernel

/-- MEM[300] = FF, the origin at (3C, 5): the sprite is clipped at the right edge, nothing wraps to column 0. -/
theorem test_drw_clips :
    let t := after 0xD011 (lit [(0, 5)] (bytesAt 0x300 [0xFF] { regs [(0, 0x3C), (1, 5)] with i := 0x300 }))
    Display.pixel t.fb 0x3B 5 = false ∧ Display.pixel t.fb 0x3C 5 = true ∧ Display.pixel t.fb 0x3F 5 = true ∧
    Display.pixel t.fb 0 5 = true ∧ t.reg 0xF = 0 ∧ t.rf = true := by decide +kernel

theorem test_drw_collides :
    let t := after 0xD011 (lit [(3, 0)] (bytesAt 0x300 [0xFF] { State.reset with i := 0x300 }))
    Display.pixel t.fb 2 0 = true ∧ Display.pixel t.fb 3 0 = false ∧ t.reg 0xF = 1 := by decide +kernel

/-! ### The step, fetch, reset and load (tables 2.2, 2.8) -/

/-- A fetch at 0xFFF faults with no word; at 0xFFE it does not. -/
theorem test_fetch_edge :
    latch (hostStep { State.reset with pc := 0xFFF }) = some (.addressOutOfRange .fetch 0xFFF, 0xFFF, none) ∧
    (after 0x6000 { State.reset with pc := 0xFFE }).pc = 0x1000 := by decide

/-- Reset memory holds 0 at 0x200: the first step faults (table 2.8). -/
theorem test_step_from_reset : latch (hostStep State.reset) = some (.unknownOpcode 0, 0x200, some 0) := by decide

/-- The codes of R200. -/
theorem test_fault_codes : hostFaultCode (.unknownOpcode 0) = 1 ∧ hostFaultCode (.stackOverflow 16) = 2 ∧
    hostFaultCode (.stackUnderflow 0) = 3 ∧ hostFaultCode (.addressOutOfRange .fetch 0xFFF) = 4 ∧
    hostFaultCode (.keyIndexOutOfRange 0x10) = 5 := by decide

/-- The load of 12 00 (table 2.8). -/
theorem test_load : ((hostLoad [0x12, 0x00] State.reset).1.mem.read 0x200 = 0x12) ∧
    (hostStep (hostLoad [0x12, 0x00] State.reset).1).pc = 0x200 := by decide

/-! ### Witnesses: states and operands that meet the hypotheses of the statements, clause by clause, at the boundaries -/

/-- The reset state with the word `op` at PC, not yet stepped. -/
def ready (op : Nat) (s : State) : State := s.withFetchWord 16 op

/-- The reset state with a fault latched, as the first step from reset leaves it. -/
def halted : State := { State.reset with fault := some ⟨.unknownOpcode 0, 0x200, some 0⟩ }

theorem witness_EncodeOfDecode : decode 0x812E = some (.shl 1 2) := by decide

theorem witness_DecodeFollowsOpcodeMap : decode 0x812E = some (.shl 1 2) ∧ decode 0x8128 = none ∧
    (0x812E : Word) &&& 0xF00F = 0x800E ∧ opcodeMap[17]? = some ⟨0xF00F, 0x800E⟩ := by decide

theorem witness_UnknownWordsFault : (ready 0x5001 State.reset).fault = none ∧
    (ready 0x5001 State.reset).fetch = some 0x5001 ∧ unknownWord 0x5001 = true := by decide

/-- The clauses of the step: latched; PC above 0xFFE; PC = 0xFFE with an unknown word. -/
theorem witness_StepRunsDecodedInstruction : halted.fault ≠ none ∧
    ({ State.reset with pc := 0xFFF }.fault = none ∧ 0xFFE < ({ State.reset with pc := 0xFFF } : State).pc.toNat) ∧
    ({ State.reset with pc := 0xFFE }.fault = none ∧
      decode (Memory.read State.reset.mem 0xFFE ++ Memory.read State.reset.mem 0xFFF) = none) := by decide

/-- The clauses of the step for a decoded instruction: `exec` faults; `exec` completes. -/
theorem witness_StepRunsDecodedInstruction_exec :
    (∃ u, exec .ret (ready 0x00EE State.reset) = .next u ∧ u.fault ≠ none) ∧
    (∃ u, exec (.ldImm 0 0) (ready 0x6000 State.reset) = .next u ∧ u.fault = none) ∧
    (ready 0x6000 State.reset).fetch = some 0x6000 ∧ decode 0x6000 = some (.ldImm 0 0) :=
  ⟨⟨_, rfl, by decide⟩, ⟨_, rfl, rfl⟩, by decide, by decide⟩

theorem witness_TimersTickOncePerStep :
    (∃ u, (ready 0x6000 State.reset).fetch = some 0x6000 ∧ decode 0x6000 = some (.ldImm 0 0) ∧
      exec (.ldImm 0 0) (ready 0x6000 State.reset) = .next u ∧ u.fault = none) ∧
    ((ready 0xF215 State.reset).fetch = some 0xF215 ∧ decode 0xF215 = some (.ldDtVx 2)) ∧
    ((ready 0xF207 State.reset).fetch = some 0xF207 ∧ decode 0xF207 = some (.ldVxDt 2)) ∧
    ((ready 0xF30A State.reset).fetch = some 0xF30A ∧ decode 0xF30A = some (.waitKey 3) ∧
      ∀ k : Reg, (ready 0xF30A State.reset).key[k.val] = false) ∧
    (∃ t, step State.reset = .next t ∧ t.fault ≠ none) :=
  ⟨⟨_, by decide, by decide, rfl, rfl⟩, by decide, by decide, by decide, ⟨_, rfl, by decide⟩⟩

theorem witness_FaultsArePrecise : State.reset.fault = none ∧ (∃ t, step State.reset = .next t ∧ t.fault ≠ none) ∧
    halted.fault ≠ none := ⟨rfl, ⟨_, rfl, by decide⟩, by decide⟩

/-- Fetch, decode and execute faults, and no fault. -/
theorem witness_FaultPriority : State.reset.fault = none ∧
    stepFault { State.reset with pc := 0xFFF } = some ⟨.addressOutOfRange .fetch 0xFFF, 0xFFF, none⟩ ∧
    stepFault State.reset = some ⟨.unknownOpcode 0, 0x200, some 0⟩ ∧
    stepFault (ready 0x00EE State.reset) = some ⟨.stackUnderflow 0, 0x200, some 0x00EE⟩ ∧
    stepFault (ready 0x6000 State.reset) = none := by decide

theorem witness_ExecuteFaultsAsTabled :
    executeFault (.call 0x300) { State.reset with sp := 16 } = some (.stackOverflow 16) ∧
    executeFault .ret State.reset = some (.stackUnderflow 0) ∧
    executeFault (.drw 0 1 15) { State.reset with i := 0xFF2 } = some (.addressOutOfRange .data 0x1000) ∧
    executeFault (.drw 0 1 15) { State.reset with i := 0xFF1 } = none ∧
    executeFault (.drw 0 1 0) { State.reset with i := 0xFFFF } = none ∧
    executeFault (.skp 1) (regs [(1, 0x10)]) = some (.keyIndexOutOfRange 0x10) ∧
    executeFault (.sknp 1) (regs [(1, 0x0F)]) = none := by decide

theorem witness_ReturnResumesAfterCall : 0 < called.sp.val ∧ 0 < ({ State.reset with sp := 16 } : State).sp.val ∧
    State.reset.sp = 0 := by decide

theorem witness_CallPushesItsOwnAddress : ({ State.reset with sp := 15 } : State).sp.val < 16 ∧
    ({ State.reset with sp := 16 } : State).sp = 16 := by decide

theorem witness_SkipOnRegisters : (1 : Nibble) ≠ 0 ∧ (0xF : Nibble) ≠ 0 := by decide

theorem witness_CallThenReturnResumes : ({ State.reset with sp := 15 } : State).sp.val < 16 ∧
    ∃ t, exec (.call 0x300) { State.reset with sp := 15 } = .next t ∧ ∃ u : State, u.sp = t.sp ∧ u.stack = t.stack :=
  ⟨by decide, _, rfl, _, rfl, rfl⟩

/-- AddWithCarryFlag, SubtractWithInvertedBorrow and ShiftsTakeBitZeroAsFlag: a destination other than VF. -/
theorem witness_FlagClauses : (0xE : Reg) ≠ Reg.vf ∧ (0 : Reg) ≠ Reg.vf := by decide

theorem witness_StoreDecimalDigits : dataAddr 0xFFD 2 ≤ 0xFFF ∧ 0xFFF < dataAddr 0xFFE 2 := by decide

/-- StoreRegisters and LoadRegisters: one register at the last byte, sixteen ending there, and one too many. -/
theorem witness_StoreRegisters_LoadRegisters :
    dataAddr 0xFFF (0 : Reg).val ≤ 0xFFF ∧ dataAddr 0xFF0 (0xF : Reg).val ≤ 0xFFF ∧ (0xF : Reg) ≤ 0xF ∧
    0xFFF < dataAddr 0xFFF (1 : Reg).val ∧ 0xFFF < dataAddr 0xFF1 (0xF : Reg).val := by decide

theorem witness_StoredInstructionIsFetchedNext : 1 ≤ (1 : Reg).val ∧ dataAddr 0xFFE (1 : Reg).val ≤ 0xFFF := by decide

theorem witness_RandomByteIsMasked : (0x0F : Byte).getLsbD 4 = false := by decide

theorem witness_SkipOnKey : ((regs [(1, 0x0F)]).reg 1).toNat < 16 ∧ 0xF < ((regs [(1, 0x10)]).reg 1).toNat := by decide

theorem witness_WaitForKey : (pressed 7 State.reset).key[(7 : Reg).val] = true ∧
    (∀ k : Reg, (pressed 7 State.reset).key[k.val] = true → k = 7) ∧
    (∀ k : Reg, (ready 0xF30A State.reset).key[k.val] = false) ∧ (ready 0xF30A State.reset).fault = none ∧
    (ready 0xF30A State.reset).fetch = some 0xF30A ∧ decode 0xF30A = some (.waitKey 3) := by decide

theorem witness_DrawSprite_range : (0 : Fin 16).val = 0 ∧ dataAddr 0xFF1 ((15 : Fin 16).val - 1) ≤ 0xFFF ∧
    (1 ≤ (15 : Fin 16).val ∧ 0xFFF < dataAddr 0xFF2 ((15 : Fin 16).val - 1)) := by decide

/-- A sprite bit on a lit pixel, the last column and the last row. -/
theorem witness_DrawSprite_collision :
    let s := lit [(0x3F, 0x1F)] (bytesAt 0x300 [0x80] { regs [(0, 0x3F), (1, 0x1F)] with i := 0x300 })
    spriteAt s.mem s.i (s.reg 0) (s.reg 1) 1 0x3F 0x1F = true ∧ Display.pixel s.fb 0x3F 0x1F = true := by decide +kernel

/-- A sprite of no rows collides nowhere. -/
theorem witness_DrawSprite_no_collision : ∀ px py,
    spriteAt State.reset.mem State.reset.i (State.reset.reg 0) (State.reset.reg 1) 0 px py = true →
      Display.pixel State.reset.fb px py = false := by
  intro px py h
  simp only [spriteAt, Bool.and_eq_true, decide_eq_true_eq] at h
  omega

theorem witness_DrawTwiceRestoresDisplay : dataAddr 0xFFF ((1 : Fin 16).val - 1) ≤ 0xFFF := by decide

theorem witness_StepNeverWritesKeys : ∃ t, step (pressed 7 State.reset) = .next t := ⟨_, rfl⟩

theorem witness_RedrawFlagRaisedOnlyByDisplay :
    (∃ t, exec .cls State.reset = .next t ∧ executeFault .cls State.reset = none) ∧
    (∃ t, exec (.drw 0 1 1) State.reset = .next t ∧ executeFault (.drw 0 1 1) State.reset = none) ∧
    (∃ t, exec (.ldImm 0 1) State.reset = .next t ∧ executeFault (.ldImm 0 1) State.reset = none) :=
  ⟨⟨_, rfl, rfl⟩, ⟨_, rfl, by decide⟩, ⟨_, rfl, rfl⟩⟩

theorem witness_MemoryWrittenOnlyByStores :
    (∃ t, exec (.ldB 4) { regs [(4, 0xFF)] with i := 0xFFD } = .next t ∧
      Memory.read t.mem 0xFFF ≠ Memory.read State.reset.mem 0xFFF) ∧
    (∃ t, exec (.storeRegs 2) four = .next t ∧ Memory.read t.mem 0x402 ≠ Memory.read four.mem 0x402) :=
  ⟨⟨_, rfl, by decide⟩, ⟨_, rfl, by decide⟩⟩

theorem witness_FlagRegisterWriters :
    (∃ t, exec (.addReg 1 2) (regs [(1, 0xFF), (2, 1)]) = .next t ∧
      t.reg Reg.vf ≠ (regs [(1, 0xFF), (2, 1)]).reg Reg.vf) ∧
    (∃ t, exec (.ldImm 0xF 1) State.reset = .next t ∧ t.reg Reg.vf ≠ State.reset.reg Reg.vf) :=
  ⟨⟨_, rfl, by decide⟩, ⟨_, rfl, by decide⟩⟩

theorem witness_IndexLeavesMemoryOnlyByAdd :
    ∃ t, exec (.addI 2) { regs [(2, 1)] with i := 0xFFF } = .next t ∧
      ({ regs [(2, 1)] with i := 0xFFF } : State).i.toNat ≤ 0xFFF ∧ 0xFFF < t.i.toNat :=
  ⟨_, rfl, by decide, by decide⟩

/-- A stack that differs from that of `called` in every entry at and above SP. -/
theorem witness_StaleStackEntriesNeverRead :
    (∀ j : Fin 16, j.val < called.sp.val → ((Vector.replicate 16 (0x7 : Word)).set 0 0x204)[j.val] = called.stackAt j) ∧
    ((Vector.replicate 16 (0x7 : Word)).set 0 0x204)[1] ≠ called.stackAt 1 := by decide

theorem witness_RestingStateOnlyTicks : (ready 0x1200 State.reset).fault = none ∧
    (ready 0x1200 State.reset).fetch = some 0x1200 ∧ decode 0x1200 = some (.jp 0x200) ∧
    (0x200 : Addr12).toNat = (ready 0x1200 State.reset).pc.toNat := by decide

/-- StepKeepsInvariant and HostMovesKeepInvariant: a state with a latched fault that meets the invariant. -/
theorem witness_StepKeepsInvariant : halted.Inv ∧ ∃ t, step halted = .next t := by
  refine ⟨⟨Memory.nil_wf, by decide, ?_⟩, _, rfl⟩
  intro f hf
  cases hf
  exact ⟨rfl, by decide, rfl, by decide⟩

theorem witness_PartsDetermineState : called.mem.wf ∧ ∀ p, Same p called called :=
  ⟨Memory.nil_wf, fun p => by cases p <;> rfl⟩

theorem witness_ResetState : 0 < Config.glyphs.length ∧ 79 < Config.glyphs.length ∧ 80 ≤ 80 := by decide

theorem witness_ResetFromAnyState : halted.fault ≠ none ∧ (hostMove .reset halted).fault = none ∧
    (hostMove (.load [0x12, 0x00]) halted).fault = none := by decide

theorem witness_LoadPlacesProgram : (List.replicate 3584 (0x12 : Byte)).length ≤ 3584 ∧
    3584 < (List.replicate 3585 (0x12 : Byte)).length := by
  rw [List.length_replicate, List.length_replicate]
  decide

end Sys2Proof.Tests
end

section
/-!
PROOFS. The step equation by equation (spec/10_state.md R35), what the execute phase does with the fault of R200's table,
and from these the statements on the step, the timer tick and the state after reset (R35, R36, R37).
-/
namespace Sys2Proof.Machine

/-! ### The step, one equation per case of R35 -/

theorem step_of_fault {s : State} (hf : s.fault ≠ none) : step s = .next s := by
  simp [step, Option.isSome_iff_ne_none, hf]

theorem step_of_fetch_none {s : State} (hn : s.fault = none) (hw : s.fetch = none) :
    step s = .next (fetchFault s) := by
  simp [step, hn, hw]

theorem step_of_decode_none {s : State} {op : Word} (hn : s.fault = none) (hw : s.fetch = some op)
    (hd : decode op = none) : step s = .next (unknownFault op s) := by
  simp [step, hn, hw, hd]

/-- An instruction that faults ends its step where the fault left it, with no tick (R36). -/
theorem step_of_exec_fault {s u : State} {op : Word} {i : Instr} (hn : s.fault = none) (hw : s.fetch = some op)
    (hd : decode op = some i) (he : exec i s = .next u) (hu : u.fault ≠ none) : step s = .next u := by
  rw [step_of_decode hn hw hd, he, afterExec, endStep_of_fault hu]

/-- An instruction that completes is followed by the tick (R36). -/
theorem step_of_exec_ok {s u : State} {op : Word} {i : Instr} (hn : s.fault = none) (hw : s.fetch = some op)
    (hd : decode op = some i) (he : exec i s = .next u) (hu : u.fault = none) : step s = .next u.tick := by
  rw [step_of_decode hn hw hd, he, afterExec, endStep_of_ok hu]

/-- The tick changes the two timers and nothing else (R36). -/
theorem frameBut_tick (s : State) : FrameBut (fun p => p = .dt ∨ p = .st) s s.tick := by
  intro p hp
  cases p with
  | dt => exact absurd (.inl rfl) hp
  | st => exact absurd (.inr rfl) hp
  | _ => rfl

/-! ### The execute phase and the fault of R200's table -/

/-- `out` is what the execute phase of `i` answers at `s` when R200's table gives it the fault `cause`: that fault, raised
with the word of `i`; and when the table gives none, a next state with the latch as it was. -/
def RaisesOrCompletes (cause : Option Fault) (i : Instr) (s : State) (out : Host.Outcome State Fault Refusal) : Prop :=
  match cause with
  | some c => out = .next (raise c (some (encode i)) s)
  | none => ∃ u, out = .next u ∧ u.fault = s.fault

theorem raisesOrCompletes_some {c : Fault} {i : Instr} {s : State} {out : Host.Outcome State Fault Refusal} :
    RaisesOrCompletes (some c) i s out ↔ out = .next (raise c (some (encode i)) s) := Iff.rfl

theorem raisesOrCompletes_none {i : Instr} {s : State} {out : Host.Outcome State Fault Refusal} :
    RaisesOrCompletes none i s out ↔ ∃ u, out = .next u ∧ u.fault = s.fault := Iff.rfl

/-- The range check of the model and R56's condition agree, and so do their first offending addresses. -/
theorem dataFault_eq (s : State) (n : Nat) :
    dataFault s n = if rangeExists s.i n then none else some (.addressOutOfRange .data (firstBadAddr s.i)) := by
  have haddr : BitVec.ofNat 16 (max s.i.toNat 0x1000) = firstBadAddr s.i := by
    rw [← firstBadAddr_toNat, BitVec.ofNat_toNat, BitVec.setWidth_eq]
  unfold dataFault
  by_cases hr : rangeExists s.i n = true
  · have hle := (rangeExists_iff s.i n).mp hr
    rw [if_pos hr, if_neg (by omega)]
  · have hgt := mt (rangeExists_iff s.i n).mpr hr
    rw [if_neg hr, if_pos (by omega), haddr]

/-- The shape of DXYN, FX33, FX55 and FX65: the range check decides between the access and the fault (R56). -/
theorem raisesOrCompletes_data (i : Instr) {s u : State} (n : Nat) (hu : u.fault = s.fault) :
    RaisesOrCompletes (dataFault s n) i s (if rangeExists s.i n then .next u else .next (raiseData i s)) := by
  rw [dataFault_eq]
  split
  · exact ⟨u, rfl, hu⟩
  · rfl

/-- The shape of EX9E and EXA1: an index that names a key, or the fault of R206. -/
theorem raisesOrCompletes_key (i : Instr) {s : State} (x : Reg) {out : Host.Outcome State Fault Refusal}
    (hnone : keyIndex (s.reg x) = none → out = .next (raise (.keyIndexOutOfRange (s.reg x)) (some (encode i)) s))
    (hsome : ∀ k, keyIndex (s.reg x) = some k → ∃ u, out = .next u ∧ u.fault = s.fault) :
    RaisesOrCompletes (keyFault s x) i s out := by
  unfold keyFault
  split
  · next h => exact hnone (keyIndex_eq_none.mpr h)
  · next h =>
    cases hk : keyIndex (s.reg x) with
    | none => exact absurd (keyIndex_eq_none.mp hk) h
    | some k => exact hsome k hk

theorem execRet_raisesOrCompletes (s : State) : RaisesOrCompletes (executeFault .ret s) .ret s (execRet s) := by
  simp only [executeFault, execRet, ← State.pop_eq_none]
  cases hp : s.pop with
  | none => rfl
  | some r =>
    obtain ⟨_, -, ht⟩ := State.pop_eq_some hp
    exact ⟨_, rfl, by rw [ht]; rfl⟩

theorem execCall_raisesOrCompletes (nnn : Addr12) (s : State) :
    RaisesOrCompletes (executeFault (.call nnn) s) (.call nnn) s (execCall nnn s) := by
  simp only [executeFault, execCall, ← State.push_eq_none (w := s.pc)]
  cases hp : s.push s.pc with
  | none => rfl
  | some t =>
    obtain ⟨_, ht⟩ := State.push_eq_some hp
    exact ⟨_, rfl, by rw [ht]; rfl⟩

/-- The execute phase of every instruction raises exactly the fault R200's table gives it, and otherwise leaves the latch
alone. -/
theorem exec_raisesOrCompletes (i : Instr) (s : State) : RaisesOrCompletes (executeFault i s) i s (exec i s) := by
  cases i with
  | ret => exact execRet_raisesOrCompletes s
  | call nnn => exact execCall_raisesOrCompletes nnn s
  | drw x y n => exact raisesOrCompletes_data _ n.val rfl
  | ldB x => exact raisesOrCompletes_data _ 3 rfl
  | storeRegs x => exact raisesOrCompletes_data _ (x.val + 1) rfl
  | loadRegs x => exact raisesOrCompletes_data _ (x.val + 1) rfl
  | skp x =>
    exact raisesOrCompletes_key _ x (fun h => by simp [exec, execSkp, h])
      (fun k h => ⟨s.skipIf s.key[k.val], by simp [exec, execSkp, h], rfl⟩)
  | sknp x =>
    exact raisesOrCompletes_key _ x (fun h => by simp [exec, execSknp, h])
      (fun k h => ⟨s.skipIf !s.key[k.val], by simp [exec, execSknp, h], rfl⟩)
  | waitKey x =>
    simp only [exec, execWaitKey]
    split
    · exact ⟨s, rfl, rfl⟩
    · exact ⟨_, rfl, rfl⟩
  | _ => exact ⟨_, rfl, rfl⟩

/-- A step that ends with FAULT set was taken by a halted machine, which it leaves as it is, or raised a fault and changed
nothing else (R204). -/
theorem eq_or_raise_of_step_fault {s t : State} (hs : step s = .next t) (ht : t.fault ≠ none) :
    t = s ∨ ∃ c op, t = raise c op s := by
  obtain ⟨-, h⟩ | ⟨-, -, h⟩ | ⟨op, -, -, -, h⟩ | ⟨op, i, hn, hw, hd, -⟩ := step_cases s
  · exact .inl (Host.Outcome.next.inj (hs.symm.trans h))
  · exact .inr ⟨_, _, Host.Outcome.next.inj (hs.symm.trans h)⟩
  · exact .inr ⟨_, _, Host.Outcome.next.inj (hs.symm.trans h)⟩
  · have hx := exec_raisesOrCompletes i s
    cases hc : executeFault i s with
    | some c =>
      rw [hc, raisesOrCompletes_some] at hx
      have h := step_of_exec_fault hn hw hd hx (by simp)
      exact .inr ⟨c, _, Host.Outcome.next.inj (hs.symm.trans h)⟩
    | none =>
      rw [hc, raisesOrCompletes_none] at hx
      obtain ⟨u, he, hu⟩ := hx
      have h := step_of_exec_ok hn hw hd he (hu.trans hn)
      have htu : t = u.tick := Host.Outcome.next.inj (hs.symm.trans h)
      exact absurd (by rw [htu, State.tick_fault, hu, hn]) ht

/-- FX0A with no key pressed changes nothing in its execute phase (R164). -/
theorem exec_waitKey_stalled {s : State} (x : Reg) (h : ∀ k : Reg, s.key[k.val] = false) :
    exec (.waitKey x) s = .next s := by
  have hp : pressedKeys s.key = [] :=
    List.eq_nil_iff_forall_not_mem.mpr fun k hk => by simpa [h k] using mem_pressedKeys.mp hk
  simp [exec, execWaitKey, hp]

/-! ### Memory with nothing listed -/

theorem Memory.unlisted_of_lt {a : Nat} (h : a < Config.glyphs.length) : Memory.unlisted a = Config.glyphs[a] :=
  List.getD_eq_getElem _ _ h

theorem Memory.unlisted_of_le {a : Nat} (h : Config.glyphs.length ≤ a) : Memory.unlisted a = 0 :=
  List.getD_eq_default _ _ h

/-! ### The obligations -/

/-- Settles O7: an instruction that completes is followed by `tick`, whose timers and frame are `tickDown_toNat` and
`frameBut_tick`; FX15, FX07 and a stalled FX0A are cases of it; a faulting step keeps every timer by
`eq_or_raise_of_step_fault`. -/
theorem timersTickOncePerStep : Obligations.TimersTickOncePerStep := by
  refine ⟨?general, ?setDelay, ?readDelay, ?stalled, ?faulting⟩
  case general =>
    intro s op i u hn hw hd he hu
    exact ⟨_, step_of_exec_ok hn hw hd he hu, tickDown_toNat _, tickDown_toNat _, frameBut_tick u⟩
  case setDelay =>
    intro s op x hn hw hd
    exact ⟨_, step_of_exec_ok hn hw hd rfl hn, tickDown_toNat _⟩
  case readDelay =>
    intro s op x hn hw hd
    exact ⟨_, step_of_exec_ok hn hw hd rfl hn, s.reg_setReg_self x s.dt, tickDown_toNat _⟩
  case stalled =>
    intro s op x hn hw hd hk
    exact ⟨_, step_of_exec_ok hn hw hd (exec_waitKey_stalled x hk) hn, tickDown_toNat _, tickDown_toNat _⟩
  case faulting =>
    intro s t hs ht
    obtain rfl | ⟨c, op, rfl⟩ := eq_or_raise_of_step_fault hs ht
    · exact ⟨rfl, rfl⟩
    · exact ⟨rfl, rfl⟩

/-- Settles O6: each clause is the equation of `step` for its case of R35. -/
theorem stepRunsDecodedInstruction : Obligations.StepRunsDecodedInstruction := by
  intro s
  refine ⟨step_of_fault, fun hn hpc => step_of_fetch_none hn (State.fetch_eq_none.mpr hpc), ?_⟩
  intro hn hpc op hop
  have hw : s.fetch = some op := State.fetch_eq_some.mpr ⟨hpc, hop.symm⟩
  refine ⟨step_of_decode_none hn hw, fun i hd => ⟨?faults, ?completes⟩⟩
  case faults => exact fun u => step_of_exec_fault hn hw hd
  case completes => exact fun u => step_of_exec_ok hn hw hd

/-- Settles O52: every field of the reset state is what R37 gives, and its memory lists no byte, so that an address reads
as its unlisted content. -/
theorem resetState : Obligations.ResetState := by
  have hlen : Config.glyphs.length = 80 := rfl
  refine ⟨fun r => ?registers, rfl, rfl, rfl, fun j => ?entries, rfl, rfl, fun px py => ?pixels, fun k => ?keys,
    rfl, rfl, hlen, fun a h => Memory.unlisted_of_lt h, fun a h => Memory.unlisted_of_le (hlen.trans_le h)⟩
  case registers => exact Vector.getElem_replicate _
  case entries => exact Vector.getElem_replicate _
  case pixels => exact Vector.getElem_replicate _
  case keys => exact Vector.getElem_replicate _

end Sys2Proof.Machine
end

section
/-!
PROOFS. When each part of the decoder answers nothing (spec/30_encoding.md R75), and from this the statement on the
unknown words (R78, R201).
-/
namespace Sys2Proof

theorem decode8_eq_none_iff (x y : Reg) (n : Nibble) :
    decode8 x y n = none ↔ n.toNat ∈ [8, 9, 0xA, 0xB, 0xC, 0xD, 0xF] := by
  have hlt := n.isLt
  unfold decode8
  split
  -- the last arm, of the codes that select no operation
  case h_10 => simp only [imp_false, List.mem_cons, List.not_mem_nil, true_iff] at *; omega
  all_goals next hn => simp [hn]

theorem decodeE_eq_none_iff (x : Reg) (kk : Byte) : decodeE x kk = none ↔ kk.toNat ∉ [0x9E, 0xA1] := by
  simp [decodeE, ← BitVec.toNat_inj, ite_eq_iff]

theorem decodeF_eq_none_iff (x : Reg) (kk : Byte) :
    decodeF x kk = none ↔ kk.toNat ∉ [0x07, 0x0A, 0x15, 0x18, 0x1E, 0x29, 0x33, 0x55, 0x65] := by
  simp [decodeF, ← BitVec.toNat_inj, ite_eq_iff]

/-- The decoder answers nothing exactly on the words R78 lists. The cases are the arms of `decode`, arm k + 1 being that of
the major opcode k; only the majors 0, 5, 8, 9, E and F have unknown words. -/
theorem decode_eq_none_iff (op : Word) : decode op = none ↔ unknownWord op = true := by
  have hlt := op.isLt
  simp only [decode, unknownWord, fieldN1_toNat]
  split
  case h_1 h => simp [h, ← BitVec.toNat_inj, ite_eq_iff]
  case h_6 h | h_10 h => simp [h, ← BitVec.toNat_inj, fieldN_toNat]
  case h_9 h => simp [h, decode8_eq_none_iff, fieldN_toNat]
  case h_15 h => simp [h, decodeE_eq_none_iff, fieldNN_toNat]
  case h_16 =>
    have h : op.toNat / 4096 = 0xF := by simp only [imp_false] at *; omega
    simp [h, decodeF_eq_none_iff, fieldNN_toNat]
  all_goals next h => simp [h]

end Sys2Proof

namespace Sys2Proof.Machine

/-- Settles O5: the words that decode to nothing are those R78 lists by `decode_eq_none_iff`, and the step that fetches
one is `step_of_decode_none`. -/
theorem unknownWordsFault : Obligations.UnknownWordsFault :=
  ⟨decode_eq_none_iff, fun _ op hn hw hu => step_of_decode_none hn hw ((decode_eq_none_iff op).mpr hu)⟩

end Sys2Proof.Machine
end

section
/-!
PROOFS. What a jump, a skip, a push and a pop leave unchanged (spec/10_state.md R24, R25), and from these the statements
on control transfer (spec/40_control_flow.md R100 to R107).
-/
namespace Sys2Proof.Machine

/-! ### Jumps and skips -/

theorem zextAddr_toNat (nnn : Addr12) : (zextAddr nnn).toNat = nnn.toNat :=
  BitVec.toNat_setWidth_of_le (by decide)

theorem zextByte_toNat (b : Byte) : (zextByte b).toNat = b.toNat :=
  BitVec.toNat_setWidth_of_le (by decide)

/-- A byte and a 12-bit address add up to at most 0x10FE, which 16 bits hold (R103). -/
theorem zextByte_add_zextAddr_toNat (b : Byte) (nnn : Addr12) :
    (zextByte b + zextAddr nnn).toNat = b.toNat + nnn.toNat := by
  have hb := b.isLt
  have hn := nnn.isLt
  rw [BitVec.toNat_add_of_lt (by rw [zextByte_toNat, zextAddr_toNat]; omega), zextByte_toNat, zextAddr_toNat]

/-- A jump adds nothing but PC to what changed before it. -/
theorem FrameBut.jumpTo {W : Part → Prop} {s t : State} (h : FrameBut W s t) (hpc : W .pc) (w : Word) :
    FrameBut W s (t.jumpTo w) := by
  intro p hp
  cases p with
  | pc => exact absurd hpc hp
  | _ => exact h _ hp

theorem frameBut_refl (W : Part → Prop) (s : State) : FrameBut W s s := by
  intro p _
  cases p <;> rfl

theorem frameBut_jumpTo (s : State) (w : Word) : FrameBut (fun p => p = .pc) s (s.jumpTo w) :=
  FrameBut.jumpTo (frameBut_refl (fun p => p = .pc) s) rfl w

/-- A skip on a test that decides `P` goes on at pc0 + 4 or pc0 + 2 and changes nothing but PC (R108). -/
theorem skipIf_spec (s : State) {c : Bool} {P : Prop} [Decidable P] (hc : c = true ↔ P) :
    (s.skipIf c).pc = (if P then s.pc + 4 else s.pc + 2) ∧ FrameBut (fun p => p = .pc) s (s.skipIf c) := by
  refine ⟨?_, frameBut_jumpTo s _⟩
  rw [State.skipIf_pc, ← apply_ite (s.pc + ·)]
  simp only [hc]

/-! ### The call stack -/

theorem State.push_of_lt {s : State} (w : Word) (h : s.sp.val < 16) :
    s.push w = some { s with stack := s.stack.set s.sp.val w, sp := ⟨s.sp.val + 1, by omega⟩ } := dif_pos h

theorem State.pop_of_pos {s : State} (h : 0 < s.sp.val) :
    s.pop = some (s.stackAt ⟨s.sp.val - 1, by omega⟩, { s with sp := ⟨s.sp.val - 1, by omega⟩ }) := dif_pos h

theorem stackAt_push {s t : State} {w : Word} (h : s.sp.val < 16) (ht : s.push w = some t) :
    t.stackAt ⟨s.sp.val, h⟩ = w := by
  obtain ⟨-, rfl⟩ := State.push_eq_some ht
  exact (stackAt_set h w s.pc _ _).trans (if_pos rfl)

theorem frameBut_push {s t : State} {w : Word} (h : s.sp.val < 16) (ht : s.push w = some t) :
    FrameBut (fun p => p = .stack ⟨s.sp.val, h⟩ ∨ p = .sp ∨ p = .pc) s t := by
  obtain ⟨-, rfl⟩ := State.push_eq_some ht
  intro p hp
  cases p with
  | sp => exact absurd (.inr (.inl rfl)) hp
  | stack j =>
    have hj : s.sp.val ≠ j.val := fun e => hp (.inl (congrArg Part.stack (Fin.ext e.symm)))
    exact (stackAt_set h w s.pc _ j).trans (if_neg hj)
  | _ => rfl

theorem frameBut_pop {s t : State} {w : Word} (ht : s.pop = some (w, t)) :
    FrameBut (fun p => p = .sp ∨ p = .pc) s t := by
  obtain ⟨-, -, rfl⟩ := State.pop_eq_some ht
  intro p hp
  cases p with
  | sp => exact absurd (.inl rfl) hp
  | _ => rfl

theorem exec_call_of_push {s t : State} {nnn : Addr12} (h : s.push s.pc = some t) :
    exec (.call nnn) s = .next (t.jumpTo (zextAddr nnn)) := by
  simp [exec, execCall, h]

theorem exec_call_of_full {s : State} (nnn : Addr12) (h : s.sp = 16) :
    exec (.call nnn) s = .next (raise (.stackOverflow 16) (some (encode (.call nnn))) s) := by
  simp [exec, execCall, State.push_eq_none.mpr h, h]

theorem exec_ret_of_pop {s t : State} {w : Word} (h : s.pop = some (w, t)) :
    exec .ret s = .next (t.jumpTo (w + 2)) := by
  simp [exec, execRet, h]

theorem exec_ret_of_empty {s : State} (h : s.sp = 0) :
    exec .ret s = .next (raise (.stackUnderflow 0) (some (encode .ret)) s) := by
  simp [exec, execRet, State.pop_eq_none.mpr h, h]

/-! ### The obligations -/

/-- Settles O11: with SP above 0 the return pops (`State.pop_of_pos`) and jumps; with SP = 0 there is nothing to pop. -/
theorem returnResumesAfterCall : Obligations.ReturnResumesAfterCall := by
  intro s
  refine ⟨rfl, fun h => ?pops, fun h => ?empty⟩
  case pops =>
    have hp := State.pop_of_pos h
    exact ⟨_, exec_ret_of_pop hp, rfl, rfl, (frameBut_pop hp).jumpTo (.inr rfl) _⟩
  case empty => exact exec_ret_of_empty h

/-- Settles O12: the target is NNN zero-extended. -/
theorem jumpSetsPc : Obligations.JumpSetsPc := fun nnn s =>
  ⟨by simp [decode], _, rfl, zextAddr_toNat nnn, frameBut_jumpTo s _⟩

/-- Settles O13: with SP below 16 the call pushes pc0 (`State.push_of_lt`) and jumps; with SP = 16 there is no room. -/
theorem callPushesItsOwnAddress : Obligations.CallPushesItsOwnAddress := by
  intro nnn s
  refine ⟨by simp [decode], fun h => ?pushes, fun h => ?full⟩
  case pushes =>
    have hp := State.push_of_lt s.pc h
    exact ⟨_, exec_call_of_push hp, (State.stackAt_jumpTo _ _ _).trans (stackAt_push h hp), rfl,
      zextAddr_toNat nnn, (frameBut_push h hp).jumpTo (.inr (.inr rfl)) _⟩
  case full => exact exec_call_of_full nnn h

/-- Settles O14: the sum of V0 and NNN fits 16 bits (`zextByte_add_zextAddr_toNat`). -/
theorem jumpAddsV0 : Obligations.JumpAddsV0 := fun nnn s =>
  ⟨by simp [decode], _, rfl, zextByte_add_zextAddr_toNat (s.reg Reg.v0) nnn, frameBut_jumpTo s _⟩

/-- Settles O15: both are `skipIf_spec`, the tests being on VX and NN. -/
theorem skipOnImmediate : Obligations.SkipOnImmediate := fun _ _ s =>
  ⟨by simp [decode], by simp [decode], ⟨_, rfl, skipIf_spec s beq_iff_eq⟩, ⟨_, rfl, skipIf_spec s bne_iff_ne⟩⟩

/-- Settles O16: both are `skipIf_spec`, the tests being on VX and VY; the decoder's arms for majors 5 and 9 take only
the last nibble 0. -/
theorem skipOnRegisters : Obligations.SkipOnRegisters := by
  intro x y s
  refine ⟨by simp [decode], by simp [decode], fun n hn => ?unknown,
    ⟨_, rfl, skipIf_spec s beq_iff_eq⟩, ⟨_, rfl, skipIf_spec s bne_iff_ne⟩⟩
  case unknown => exact ⟨by simpa [decode] using hn, by simpa [decode] using hn⟩

end Sys2Proof.Machine
end

section
/-!
PROOFS. What the 8-bit arithmetic computes as numbers (spec/41_alu.md R126 to R131), what writing VX, or VF and then VX,
leaves unchanged (spec/10_state.md R13), and from these the statements on the register load and the ALU (R120 to R130).
-/
namespace Sys2Proof.Machine

/-! ### The decoder and the arithmetic as numbers -/

/-- The 8XYn words are decoded by n (R75). -/
theorem decode_wordXYN_eight (x y : Reg) (n : Nibble) : decode (wordXYN 0x8 x y n) = decode8 x y n := by
  simp [decode]

theorem add8_toNat (a b : Byte) : (add8 a b).toNat = (a.toNat + b.toNat) % 256 :=
  BitVec.toNat_ofNat _ _

theorem shl8_toNat (a : Byte) : (shl8 a).toNat = a.toNat * 2 % 256 :=
  BitVec.toNat_ofNat _ _

theorem shr8_toNat (a : Byte) : (shr8 a).toNat = a.toNat / 2 := by
  rw [shr8, BitVec.toNat_ushiftRight, Nat.shiftRight_one]

theorem lowBitFlag_toNat (a : Byte) : (lowBitFlag a).toNat = a.toNat % 2 :=
  (BitVec.toNat_and a 1).trans (Nat.and_one_is_mod _)

/-- The byte is the remainder of the difference of integers, which is never negative. -/
theorem sub8_toNat (a b : Byte) : ((sub8 a b).toNat : Int) = ((a.toNat : Int) - (b.toNat : Int)) % 256 := by
  rw [sub8, BitVec.toNat_ofInt]
  exact Int.toNat_of_nonneg (Int.emod_nonneg _ (by decide))

theorem flagByte_decide (P : Prop) [Decidable P] : flagByte (decide P) = if P then 1 else 0 := by
  simp only [flagByte, decide_eq_true_eq]

/-! ### Writing VX, and writing VF and then VX -/

/-- A register write adds nothing but that register to what changed before it. -/
theorem FrameBut.setReg {W : Part → Prop} {s t : State} {r : Reg} (h : FrameBut W s t) (hr : W (.reg r)) (b : Byte) :
    FrameBut W s (t.setReg r b) := by
  intro p hp
  cases p with
  | reg q =>
    have hq : q ≠ r := fun e => hp (e ▸ hr)
    exact (t.reg_setReg_of_ne hq b).trans (h _ hp)
  | _ => exact h _ hp

theorem frameBut_setReg_advance (s : State) (x : Reg) (b : Byte) :
    FrameBut (fun p => p = .reg x ∨ p = .pc) s (s.setReg x b).advance :=
  ((frameBut_refl _ s).setReg (.inl rfl) b).jumpTo (.inr rfl) _

theorem frameBut_setFlagThenReg_advance (s : State) (x : Reg) (flag b : Byte) :
    FrameBut (fun p => p = .reg x ∨ p = .reg Reg.vf ∨ p = .pc) s (s.setFlagThenReg x flag b).advance :=
  (((frameBut_refl _ s).setReg (.inr (.inl rfl)) flag).setReg (.inl rfl) b).jumpTo (.inr (.inr rfl)) _

/-- The result is written last, so it stays for X = 0xF too (R132). -/
theorem State.reg_setFlagThenReg_self (s : State) (x : Reg) (flag b : Byte) :
    (s.setFlagThenReg x flag b).reg x = b :=
  (s.setReg Reg.vf flag).reg_setReg_self x b

theorem State.vf_setFlagThenReg (s : State) {x : Reg} (hx : x ≠ Reg.vf) (flag b : Byte) :
    (s.setFlagThenReg x flag b).reg Reg.vf = flag :=
  ((s.setReg Reg.vf flag).reg_setReg_of_ne hx.symm b).trans (s.reg_setReg_self Reg.vf flag)

/-- What 8XY5 and 8XY7 have in common, on the minuend `a` and the subtrahend `b` (R127, R129). -/
theorem subtract_spec (s : State) (x : Reg) (a b : Byte) {t : State}
    (ht : t = (s.setFlagThenReg x (noBorrowFlag a b) (sub8 a b)).advance) :
    ((t.reg x).toNat : Int) = ((a.toNat : Int) - (b.toNat : Int)) % 256 ∧
    (x ≠ Reg.vf → t.reg Reg.vf = if a.toNat ≥ b.toNat then 1 else 0) ∧
    t.pc = s.pc + 2 ∧ FrameBut (fun p => p = .reg x ∨ p = .reg Reg.vf ∨ p = .pc) s t := by
  subst ht
  refine ⟨?difference, fun hx => ?flag, rfl, frameBut_setFlagThenReg_advance s x _ _⟩
  case difference => rw [State.reg_advance, State.reg_setFlagThenReg_self, sub8_toNat]
  case flag => rw [State.reg_advance, State.vf_setFlagThenReg s hx, noBorrowFlag, flagByte_decide]

/-- What 8XY6 and 8XYE have in common, on the shifted value `b`: the flag is the old bit 0 in both (R128, R130). -/
theorem shift_spec (s : State) (x : Reg) (b : Byte) {t : State}
    (ht : t = (s.setFlagThenReg x (lowBitFlag (s.reg x)) b).advance) :
    (t.reg x).toNat = b.toNat ∧ (x ≠ Reg.vf → (t.reg Reg.vf).toNat = (s.reg x).toNat % 2) ∧
    t.pc = s.pc + 2 ∧ FrameBut (fun p => p = .reg x ∨ p = .reg Reg.vf ∨ p = .pc) s t := by
  subst ht
  refine ⟨?result, fun hx => ?flag, rfl, frameBut_setFlagThenReg_advance s x _ _⟩
  case result => rw [State.reg_advance, State.reg_setFlagThenReg_self]
  case flag => rw [State.reg_advance, State.vf_setFlagThenReg s hx, lowBitFlag_toNat]

/-! ### The obligations -/

/-- Settles O18: one register write and PC + 2. -/
theorem loadImmediate : Obligations.LoadImmediate := fun x nn s =>
  ⟨by simp [decode], _, rfl, s.reg_setReg_self x nn, rfl, frameBut_setReg_advance s x nn⟩

/-- Settles O19: the value is `add8_toNat`; the only register written is VX. -/
theorem addImmediateWithoutFlag : Obligations.AddImmediateWithoutFlag := by
  intro x nn s
  refine ⟨by simp [decode], _, rfl, ?sum, rfl, frameBut_setReg_advance s x _⟩
  case sum => rw [State.reg_advance, State.reg_setReg_self, add8_toNat]

/-- Settles O20: one register write and PC + 2; for X = Y too the value written is vy. -/
theorem copyRegister : Obligations.CopyRegister := fun x y s =>
  ⟨decode_wordXYN_eight x y 0x0, _, rfl, s.reg_setReg_self x (s.reg y), rfl, frameBut_setReg_advance s x _⟩

/-- Settles O21: the three operations of `BitVec` act bit by bit; the only register written is VX. -/
theorem logicBitByBit : Obligations.LogicBitByBit := by
  intro x y s
  refine ⟨decode_wordXYN_eight x y 0x1, decode_wordXYN_eight x y 0x2, decode_wordXYN_eight x y 0x3,
    ⟨_, rfl, fun k => ?or, rfl, frameBut_setReg_advance s x _⟩,
    ⟨_, rfl, fun k => ?and, rfl, frameBut_setReg_advance s x _⟩,
    ⟨_, rfl, fun k => ?xor, rfl, frameBut_setReg_advance s x _⟩⟩
  case or => rw [State.reg_advance, State.reg_setReg_self, BitVec.getLsbD_or]
  case and => rw [State.reg_advance, State.reg_setReg_self, BitVec.getLsbD_and]
  case xor => rw [State.reg_advance, State.reg_setReg_self, BitVec.getLsbD_xor]

/-- Settles O22: the sum is written last (`State.reg_setFlagThenReg_self`), and VF keeps the carry unless it is VX
(`State.vf_setFlagThenReg`). -/
theorem addWithCarryFlag : Obligations.AddWithCarryFlag := by
  intro x y s
  refine ⟨decode_wordXYN_eight x y 0x4, _, rfl, ?sum, fun hx => ?carry, rfl, frameBut_setFlagThenReg_advance s x _ _⟩
  case sum => rw [State.reg_advance, State.reg_setFlagThenReg_self, add8_toNat]
  case carry => rw [State.reg_advance, State.vf_setFlagThenReg s hx, carryFlag, flagByte_decide]

/-- Settles O23: 8XY5 and 8XY7 are `subtract_spec`, with the operands exchanged. -/
theorem subtractWithInvertedBorrow : Obligations.SubtractWithInvertedBorrow := fun x y s =>
  ⟨decode_wordXYN_eight x y 0x5, decode_wordXYN_eight x y 0x7,
    ⟨_, rfl, subtract_spec s x (s.reg x) (s.reg y) rfl⟩, ⟨_, rfl, subtract_spec s x (s.reg y) (s.reg x) rfl⟩⟩

/-- Settles O24: 8XY6 and 8XYE are `shift_spec` on the halved and on the doubled value; neither names Y. -/
theorem shiftsTakeBitZeroAsFlag : Obligations.ShiftsTakeBitZeroAsFlag := by
  intro x y s
  refine ⟨decode_wordXYN_eight x y 0x6, decode_wordXYN_eight x y 0xE, ?right, ?left⟩
  case right =>
    obtain ⟨hvx, hvf, hpc, hframe⟩ := shift_spec s x (shr8 (s.reg x)) rfl
    exact ⟨_, rfl, hvx.trans (shr8_toNat _), hvf, hpc, hframe, fun _ => rfl⟩
  case left =>
    obtain ⟨hvx, hvf, hpc, hframe⟩ := shift_spec s x (shl8 (s.reg x)) rfl
    exact ⟨_, rfl, hvx.trans (shl8_toNat _), hvf, hpc, hframe, fun _ => rfl⟩

end Sys2Proof.Machine
end

section
/-!
PROOFS. The range check decides between a data access and its fault (spec/20_memory.md R56), what an access through I and a
write to I leave unchanged (spec/10_state.md R13), and from these the statements on the index register, the stores and the
load (spec/42_index_memory.md R140 to R145).
-/
namespace Sys2Proof.Machine

/-! ### The range check, and the fault when it fails -/

/-- An access of `n + 1` bytes is in range exactly when its last byte exists (R56). -/
theorem rangeExists_succ (i0 : Word) (n : Nat) : rangeExists i0 (n + 1) = true ↔ dataAddr i0 n ≤ 0xFFF := by
  simp [rangeExists]

/-- An instruction whose fault is that of a data access of `n + 1` bytes raises it when the last byte does not exist
(R56, R205). -/
theorem exec_of_dataAddr_gt {i : Instr} {s : State} {n : Nat} (hi : executeFault i s = dataFault s (n + 1))
    (h : 0xFFF < dataAddr s.i n) : exec i s = .next { s with
      fault := some ⟨.addressOutOfRange .data (BitVec.ofNat 16 (max s.i.toNat 0x1000)), s.pc, some (encode i)⟩ } := by
  have hc : dataFault s (n + 1) = some (.addressOutOfRange .data (BitVec.ofNat 16 (max s.i.toNat 0x1000))) :=
    if_pos ⟨n.succ_pos, h⟩
  have hx := exec_raisesOrCompletes i s
  rwa [hi, hc, raisesOrCompletes_some] at hx

/-! ### Frames -/

theorem frameBut_setI_advance (s : State) (w : Word) :
    FrameBut (fun p => p = .i ∨ p = .pc) s { s with i := w }.advance := by
  intro p hp
  cases p with
  | i => exact absurd (.inl rfl) hp
  | pc => exact absurd (.inr rfl) hp
  | _ => rfl

/-- A new memory that reads as the old one outside `W`, and PC + 2. -/
theorem frameBut_setMem_advance {W : Part → Prop} {s : State} {m : Memory} (hpc : W .pc)
    (hm : ∀ a, ¬ W (.byte a) → Memory.read m a = Memory.read s.mem a) : FrameBut W s { s with mem := m }.advance := by
  intro p hp
  cases p with
  | pc => exact absurd hpc hp
  | byte a => exact hm a hp
  | _ => rfl

/-- A new register file that reads as the old one outside `W`, and PC + 2. -/
theorem frameBut_setRegs_advance {W : Part → Prop} {s : State} {v : Vector Byte 16} (hpc : W .pc)
    (hv : ∀ r, ¬ W (.reg r) → State.reg { s with v := v } r = s.reg r) : FrameBut W s { s with v := v }.advance := by
  intro p hp
  cases p with
  | pc => exact absurd hpc hp
  | reg r => exact hv r hp
  | _ => rfl

/-! ### The bytes at I + k -/

/-- Each digit of a byte is itself a byte. -/
theorem toNat_ofNat_of_le_byte (b : Byte) {n : Nat} (h : n ≤ b.toNat) : (BitVec.ofNat 8 n).toNat = n :=
  Nat.mod_eq_of_lt (h.trans_lt b.isLt)

/-- The byte at I + k after FX33 is digit k, hundreds first (R143). -/
theorem read_storedDigits_dataAddr (s : State) (b : Byte) (k : Fin 3) :
    Memory.read (Memory.writeBytes s.mem (dataAddr s.i 0) (decimalDigits b)) (dataAddr s.i k.val) =
      (decimalDigits b)[k.val]'k.isLt := by
  rw [read_storedDigits]
  match k with
  | 0 => exact if_pos rfl
  | 1 => simp [dataAddr, decimalDigits]
  | 2 => simp [dataAddr, decimalDigits]

theorem read_storedDigits_of_ne (s : State) (b : Byte) {a : Nat} (h : ∀ k ≤ 2, a ≠ dataAddr s.i k) :
    Memory.read (Memory.writeBytes s.mem (dataAddr s.i 0) (decimalDigits b)) a = Memory.read s.mem a := by
  have h0 : a ≠ s.i.toNat := h 0 (by decide)
  have h1 : a ≠ s.i.toNat + 1 := h 1 (by decide)
  have h2 : a ≠ s.i.toNat + 2 := h 2 (by decide)
  rw [read_storedDigits, if_neg h0, if_neg h1, if_neg h2]

theorem read_storedRegs_dataAddr (s : State) {k x : Reg} (hk : k ≤ x) :
    Memory.read (Memory.writeBytes s.mem (dataAddr s.i 0) (s.v.toList.take (x.val + 1))) (dataAddr s.i k.val) =
      s.reg k := by
  rw [read_storedRegs, dif_pos ⟨Nat.le_add_right _ _, Nat.add_le_add_left hk _⟩]
  exact congrArg s.reg (Fin.ext (Nat.add_sub_cancel_left _ _))

/-- An address between I and I + X is I + k for some register number k. -/
theorem read_storedRegs_of_ne (s : State) {x : Reg} {a : Nat} (h : ∀ k ≤ x, a ≠ dataAddr s.i k.val) :
    Memory.read (Memory.writeBytes s.mem (dataAddr s.i 0) (s.v.toList.take (x.val + 1))) a = Memory.read s.mem a := by
  rw [read_storedRegs, dif_neg]
  rintro ⟨hlo, hhi⟩
  have hk : a - s.i.toNat ≤ x.val := Nat.sub_le_iff_le_add'.mpr hhi
  exact h ⟨a - s.i.toNat, hk.trans_lt x.isLt⟩ hk (Nat.add_sub_of_le hlo).symm

/-! ### The obligations -/

/-- Settles O28: in range, the bytes are `read_storedDigits_dataAddr` and the frame is `read_storedDigits_of_ne`; out of
range, the fault is `exec_of_dataAddr_gt`. -/
theorem storeDecimalDigits : Obligations.StoreDecimalDigits := by
  intro x s
  refine ⟨by simp [decode, decodeF], fun h => ⟨_, if_pos ((rangeExists_succ s.i 2).mpr h), ?hundreds, ?tens, ?ones, rfl,
    frameBut_setMem_advance (.inl rfl) fun a ha => ?frame⟩, exec_of_dataAddr_gt rfl⟩
  case hundreds =>
    exact (congrArg _ (read_storedDigits_dataAddr s _ 0)).trans (toNat_ofNat_of_le_byte (s.reg x) (by omega))
  case tens =>
    exact (congrArg _ (read_storedDigits_dataAddr s _ 1)).trans (toNat_ofNat_of_le_byte (s.reg x) (by omega))
  case ones =>
    exact (congrArg _ (read_storedDigits_dataAddr s _ 2)).trans (toNat_ofNat_of_le_byte (s.reg x) (by omega))
  case frame => exact read_storedDigits_of_ne s _ fun k hk e => ha (.inr ⟨k, hk, congrArg Part.byte e⟩)

/-- Settles O29: in range, the bytes are `read_storedRegs_dataAddr` and the frame is `read_storedRegs_of_ne`; out of range,
the fault is `exec_of_dataAddr_gt`. -/
theorem storeRegisters : Obligations.StoreRegisters := by
  intro x s
  refine ⟨by simp [decode, decodeF], fun h => ⟨_, if_pos ((rangeExists_succ s.i x.val).mpr h),
    fun k hk => read_storedRegs_dataAddr s hk, rfl, frameBut_setMem_advance (.inl rfl) fun a ha => ?frame⟩,
    exec_of_dataAddr_gt rfl⟩
  case frame => exact read_storedRegs_of_ne s fun k hk e => ha (.inr ⟨k, hk, congrArg Part.byte e⟩)

/-- Settles O30: in range, the registers up to X and those above it are `reg_loadedRegs`; out of range, the fault is
`exec_of_dataAddr_gt`. -/
theorem loadRegisters : Obligations.LoadRegisters := by
  intro x s
  refine ⟨by simp [decode, decodeF], fun h => ⟨_, if_pos ((rangeExists_succ s.i x.val).mpr h),
    fun k hk => (reg_loadedRegs s x k).trans (if_pos hk), rfl, frameBut_setRegs_advance (.inl rfl) fun r hr => ?frame⟩,
    exec_of_dataAddr_gt rfl⟩
  case frame => exact (reg_loadedRegs s x r).trans (if_neg fun hle => hr (.inr ⟨r, hle, rfl⟩))

/-- Settles O25: the value is NNN zero-extended. -/
theorem loadIndex : Obligations.LoadIndex := fun nnn s =>
  ⟨by simp [decode], _, rfl, zextAddr_toNat nnn, rfl, frameBut_setI_advance s _⟩

/-- Settles O26: the sum of 16-bit words is taken modulo 65536. -/
theorem addToIndex : Obligations.AddToIndex := by
  intro x s
  refine ⟨by simp [decode, decodeF], _, rfl, ?sum, rfl, frameBut_setI_advance s _⟩
  case sum => rw [State.advance_i, BitVec.toNat_add, zextByte_toNat]

/-- Settles O27: five times a byte is at most 1275, which 16 bits hold. -/
theorem pointAtGlyph : Obligations.PointAtGlyph := by
  intro x s
  have hlt := (s.reg x).isLt
  exact ⟨by simp [decode, decodeF], _, rfl, Nat.mod_eq_of_lt (by omega), rfl, frameBut_setI_advance s _⟩

end Sys2Proof.Machine
end

section
/-!
PROOFS. What EX9E, EXA1 and FX0A do for each reading of the keypad, what a write to a timer leaves unchanged
(spec/10_state.md R13), and from these the statements on the keypad and the timers (spec/43_random_timer_key.md R161 to
R166).
-/
namespace Sys2Proof.Machine

/-- The EXkk words are decoded by kk (R75). -/
theorem decode_wordXNN_E (x : Reg) (kk : Byte) : decode (wordXNN 0xE x kk) = decodeE x kk := by
  simp [decode]

/-- The FXkk words are decoded by kk (R75). -/
theorem decode_wordXNN_F (x : Reg) (kk : Byte) : decode (wordXNN 0xF x kk) = decodeF x kk := by
  simp [decode]

/-! ### The keypad -/

theorem keyIndex_of_lt {b : Byte} (h : b.toNat < 16) : keyIndex b = some ⟨b.toNat, h⟩ :=
  keyIndex_eq_some.mpr rfl

theorem exec_skp_of_lt {s : State} {x : Reg} (h : (s.reg x).toNat < 16) :
    exec (.skp x) s = .next (s.skipIf s.key[(s.reg x).toNat]) := by
  simp [exec, execSkp, keyIndex_of_lt h]

theorem exec_sknp_of_lt {s : State} {x : Reg} (h : (s.reg x).toNat < 16) :
    exec (.sknp x) s = .next (s.skipIf !s.key[(s.reg x).toNat]) := by
  simp [exec, execSknp, keyIndex_of_lt h]

/-- An instruction whose fault is that of the key index in VX raises it when VX is above 0xF (R206). -/
theorem exec_of_keyIndex_gt {i : Instr} {s : State} {x : Reg} (hi : executeFault i s = keyFault s x)
    (h : 0xF < (s.reg x).toNat) : exec i s = .next { s with
      fault := some ⟨.keyIndexOutOfRange (s.reg x), s.pc, some (encode i)⟩ } := by
  have hc : keyFault s x = some (.keyIndexOutOfRange (s.reg x)) := if_pos h
  have hx := exec_raisesOrCompletes i s
  rwa [hi, hc, raisesOrCompletes_some] at hx

/-- With a key pressed FX0A writes the index of a pressed key; which one is KeyPick's choice (R164). -/
theorem exec_waitKey_pressed {s : State} (x : Reg) {j : Reg} (hj : s.key[j.val] = true) :
    ∃ k : Reg, s.key[k.val] = true ∧ exec (.waitKey x) s = .next (s.setReg x (BitVec.ofNat 8 k.val)).advance := by
  have hp : pressedKeys s.key ≠ [] := List.ne_nil_of_mem (mem_pressedKeys.mpr hj)
  exact ⟨_, mem_pressedKeys.mp (pickKey_mem hp (Config.keyPick s.key)), if_neg hp⟩

/-- A byte holds every key index. -/
theorem toNat_ofNat_key (k : Reg) : (BitVec.ofNat 8 k.val).toNat = k.val :=
  Nat.mod_eq_of_lt (k.isLt.trans (by decide))

/-! ### Frames -/

theorem frameBut_setDt_advance (s : State) (b : Byte) :
    FrameBut (fun p => p = .dt ∨ p = .pc) s { s with dt := b }.advance := by
  intro p hp
  cases p with
  | dt => exact absurd (.inl rfl) hp
  | pc => exact absurd (.inr rfl) hp
  | _ => rfl

theorem frameBut_setSt_advance (s : State) (b : Byte) :
    FrameBut (fun p => p = .st ∨ p = .pc) s { s with st := b }.advance := by
  intro p hp
  cases p with
  | st => exact absurd (.inl rfl) hp
  | pc => exact absurd (.inr rfl) hp
  | _ => rfl

/-! ### The obligations -/

/-- Settles O34: with a key pressed, VX is the index of a pressed key (`exec_waitKey_pressed`), hence of the only one
when one is pressed; with none pressed the execute phase changes nothing and the step is the tick. -/
theorem waitForKey : Obligations.WaitForKey := by
  intro x s
  refine ⟨decode_wordXNN_F x 0x0A, fun j hj => ?pressed, fun hnone => ⟨exec_waitKey_stalled x hnone, ?stalled⟩⟩
  case pressed =>
    obtain ⟨k, hk, he⟩ := exec_waitKey_pressed x hj
    have hvx : ((s.setReg x (BitVec.ofNat 8 k.val)).advance.reg x).toNat = k.val := by
      rw [State.reg_advance, State.reg_setReg_self, toNat_ofNat_key]
    exact ⟨_, he, ⟨k, hk, hvx⟩, fun honly => hvx.trans (congrArg Fin.val (honly k hk)), rfl,
      frameBut_setReg_advance s x _⟩
  case stalled =>
    intro op hn hw hd
    exact ⟨_, step_of_exec_ok hn hw hd (exec_waitKey_stalled x hnone) hn, tickDown_toNat _, tickDown_toNat _,
      frameBut_tick s⟩

/-- Settles O33: an index up to 0xF names a key, and both are `skipIf_spec` on that key's state; above it both raise the
fault of R206 (`exec_of_keyIndex_gt`). -/
theorem skipOnKey : Obligations.SkipOnKey := by
  intro x s
  refine ⟨decode_wordXNN_E x 0x9E, decode_wordXNN_E x 0xA1, fun h => ⟨?skp, ?sknp⟩,
    fun h => ⟨exec_of_keyIndex_gt rfl h, exec_of_keyIndex_gt rfl h⟩⟩
  case skp => exact ⟨_, exec_skp_of_lt h, skipIf_spec s Iff.rfl⟩
  case sknp => exact ⟨_, exec_sknp_of_lt h, skipIf_spec s (Iff.of_eq (Bool.not_eq_true' _))⟩

/-- Settles O35: one register write, of DT as it stands in the execute phase, and PC + 2. -/
theorem readDelayTimer : Obligations.ReadDelayTimer := fun x s =>
  ⟨decode_wordXNN_F x 0x07, _, rfl, s.reg_setReg_self x s.dt, rfl, frameBut_setReg_advance s x s.dt⟩

/-- Settles O36: each is one timer write and PC + 2. -/
theorem setTimers : Obligations.SetTimers := fun x s =>
  ⟨decode_wordXNN_F x 0x15, decode_wordXNN_F x 0x18, ⟨_, rfl, rfl, rfl, frameBut_setDt_advance s _⟩,
    ⟨_, rfl, rfl, rfl, frameBut_setSt_advance s _⟩⟩

end Sys2Proof.Machine
end

section
/-!
PROOFS. When DXYN draws, what a write to the display leaves unchanged (spec/10_state.md R13), the collision flag of a draw,
and from these the statements on 00E0 and DXYN (spec/44_display.md R180 to R183).
-/
namespace Sys2Proof.Machine

/-! ### The range check of DXYN -/

/-- With N = 0 no sprite byte is read; otherwise the last one decides (R56, R181). -/
theorem rangeExists_iff_dataAddr (i0 : Word) (n : Nat) :
    rangeExists i0 n = true ↔ n = 0 ∨ dataAddr i0 (n - 1) ≤ 0xFFF := by
  simp [rangeExists]

theorem exec_drw_of_range {x y n : Fin 16} {s : State} (h : n.val = 0 ∨ dataAddr s.i (n.val - 1) ≤ 0xFFF) :
    exec (.drw x y n) s = .next (drawn x y n s) :=
  if_pos ((rangeExists_iff_dataAddr s.i n.val).mpr h)

theorem executeFault_drw_of_pos (x y : Fin 16) {n : Fin 16} (s : State) (h : 1 ≤ n.val) :
    executeFault (.drw x y n) s = dataFault s (n.val - 1 + 1) :=
  congrArg (dataFault s) (Nat.sub_add_cancel h).symm

/-! ### Frames -/

/-- A new display with RF raised adds nothing but pixels and RF to what changed before it. -/
theorem FrameBut.setDisplay {W : Part → Prop} {s t : State} (h : FrameBut W s t) (hrf : W .rf)
    (hpixel : ∀ px py, W (.pixel px py)) (d : Display) : FrameBut W s { t with fb := d, rf := true } := by
  intro p hp
  cases p with
  | rf => exact absurd hrf hp
  | pixel px py => exact absurd (hpixel px py) hp
  | _ => exact h _ hp

theorem frameBut_cls (s : State) :
    FrameBut (fun p => p = .rf ∨ p = .pc ∨ ∃ px py, p = .pixel px py) s
      { s with fb := Display.clear, rf := true }.advance :=
  ((frameBut_refl _ s).setDisplay (.inl rfl) (fun px py => .inr (.inr ⟨px, py, rfl⟩)) _).jumpTo (.inr (.inl rfl)) _

theorem frameBut_drawn (x y n : Fin 16) (s : State) :
    FrameBut (fun p => p = .reg Reg.vf ∨ p = .rf ∨ p = .pc ∨ ∃ px py, p = .pixel px py) s (drawn x y n s) :=
  (((frameBut_refl _ s).setReg (.inl rfl) _).setDisplay (.inr (.inl rfl))
    (fun px py => .inr (.inr (.inr ⟨px, py, rfl⟩))) _).jumpTo (.inr (.inr (.inl rfl))) _

/-! ### The display and the collision flag after a draw -/

theorem pixel_drawn (x y n : Fin 16) (s : State) (px : Fin 64) (py : Fin 32) :
    Display.pixel (drawn x y n s).fb px py =
      (Display.pixel s.fb px py ^^ spriteAt s.mem s.i (s.reg x) (s.reg y) n.val px py) :=
  (blit_spec s.mem s.i (s.reg x) (s.reg y) n.val s.fb).1 px py

theorem vf_drawn (x y n : Fin 16) (s : State) :
    (drawn x y n s).reg Reg.vf = flagByte (blit s.mem s.i (s.reg x) (s.reg y) n.val s.fb).2 :=
  (drawn_reg x y n s Reg.vf).trans (if_pos rfl)

theorem vf_drawn_of_collision {x y n : Fin 16} {s : State}
    (h : ∃ px py, spriteAt s.mem s.i (s.reg x) (s.reg y) n.val px py = true ∧ Display.pixel s.fb px py = true) :
    (drawn x y n s).reg Reg.vf = 1 := by
  have hc := (blit_spec s.mem s.i (s.reg x) (s.reg y) n.val s.fb).2.mpr h
  rw [vf_drawn, hc]
  rfl

theorem vf_drawn_of_no_collision {x y n : Fin 16} {s : State}
    (h : ∀ px py, spriteAt s.mem s.i (s.reg x) (s.reg y) n.val px py = true → Display.pixel s.fb px py = false) :
    (drawn x y n s).reg Reg.vf = 0 := by
  have hc : (blit s.mem s.i (s.reg x) (s.reg y) n.val s.fb).2 = false := by
    refine Bool.eq_false_iff.mpr fun hcollides => ?_
    obtain ⟨px, py, hbit, hlit⟩ := (blit_spec s.mem s.i (s.reg x) (s.reg y) n.val s.fb).2.mp hcollides
    exact Bool.false_ne_true ((h px py hbit).symm.trans hlit)
  rw [vf_drawn, hc]
  rfl

/-! ### The obligations -/

/-- Settles O37: the cleared display has every pixel 0, and VF is among the parts kept (`frameBut_cls`). -/
theorem clearDisplay : Obligations.ClearDisplay := fun s =>
  ⟨rfl, _, rfl, Display.pixel_clear, rfl, rfl, frameBut_cls s⟩

/-- Settles O38: in range, the display and VF are those of the blit (`pixel_drawn`, `vf_drawn_of_collision`,
`vf_drawn_of_no_collision`); out of range, the fault is `exec_of_dataAddr_gt`. -/
theorem drawSprite : Obligations.DrawSprite := by
  intro x y n s
  refine ⟨by simp [decode, toFin_ofFin], fun h => ?draws, fun hpos => ?faults⟩
  case draws =>
    exact ⟨_, exec_drw_of_range h, pixel_drawn x y n s, vf_drawn_of_collision, vf_drawn_of_no_collision, rfl, rfl,
      frameBut_drawn x y n s⟩
  case faults => exact exec_of_dataAddr_gt (executeFault_drw_of_pos x y s hpos)

end Sys2Proof.Machine
end

section
/-!
PROOFS. The word of a decoded instruction is the word it was decoded from (spec/30_encoding.md R71, R73), the fault record
of a step case by case, and from these the statement on the order of faults (spec/60_exceptions.md R207).
-/
namespace Sys2Proof

/-! ### A word put together from its own fields (R71) -/

/-- A word of format NNN, from its major opcode and its own address field. -/
theorem wordNNN_fields {op : Word} {n1 : Nibble} (h : (fieldN1 op).toNat = n1.toNat) :
    wordNNN n1 (fieldNNN op) = op := by
  apply BitVec.eq_of_toNat_eq
  rw [wordNNN_toNat, ← h, fieldN1_toNat, fieldNNN_toNat]
  omega

/-- A word of format XNN, from its major opcode and its own X and NN fields. -/
theorem wordXNN_fields {op : Word} {n1 : Nibble} (h : (fieldN1 op).toNat = n1.toNat) :
    wordXNN n1 (fieldX op) (fieldNN op) = op := by
  apply BitVec.eq_of_toNat_eq
  rw [wordXNN_toNat, ← h, fieldN1_toNat, fieldX_val, fieldNN_toNat]
  omega

/-- A word of format XYN, from its major opcode and its own X, Y and N fields. -/
theorem wordXYN_fields {op : Word} {n1 : Nibble} (h : (fieldN1 op).toNat = n1.toNat) :
    wordXYN n1 (fieldX op) (fieldY op) (fieldN op) = op := by
  apply BitVec.eq_of_toNat_eq
  rw [wordXYN_toNat, ← h, fieldN1_toNat, fieldX_val, fieldY_val, fieldN_toNat]
  omega

/-! ### The encoder undoes the decoder -/

theorem encode_of_decode8 {x y : Reg} {n : Nibble} {i : Instr} (h : decode8 x y n = some i) :
    encode i = wordXYN 0x8 x y n := by
  unfold decode8 at h
  split at h
  case h_10 => cases h
  all_goals
    next hn =>
      cases h
      exact congrArg (wordXYN 0x8 x y) (BitVec.eq_of_toNat_eq hn.symm)

theorem encode_of_decodeE {x : Reg} {kk : Byte} {i : Instr} (h : decodeE x kk = some i) :
    encode i = wordXNN 0xE x kk := by
  unfold decodeE at h
  repeat' split at h
  all_goals cases h
  all_goals subst_vars; rfl

theorem encode_of_decodeF {x : Reg} {kk : Byte} {i : Instr} (h : decodeF x kk = some i) :
    encode i = wordXNN 0xF x kk := by
  unfold decodeF at h
  repeat' split at h
  all_goals cases h
  all_goals subst_vars; rfl

/-- A word that decodes is the word of its instruction. The cases are the arms of `decode`, arm k + 1 being that of the
major opcode k. -/
theorem encode_of_decode {op : Word} {i : Instr} (h : decode op = some i) : encode i = op := by
  simp only [decode] at h
  split at h
  case h_1 =>
    repeat' split at h
    all_goals cases h
    all_goals subst_vars; rfl
  case h_6 hk | h_10 hk =>
    simp only [Option.ite_none_right_eq_some, Option.some.injEq] at h
    obtain ⟨hn, rfl⟩ := h
    exact (congrArg (wordXYN _ _ _) hn.symm).trans (wordXYN_fields hk)
  case h_9 hk => exact (encode_of_decode8 h).trans (wordXYN_fields hk)
  case h_14 hk => cases h; exact wordXYN_fields hk
  case h_15 hk => exact (encode_of_decodeE h).trans (wordXNN_fields hk)
  case h_16 =>
    have hlt := (fieldN1 op).isLt
    have hk : (fieldN1 op).toNat = 0xF := by simp only [imp_false] at *; omega
    exact (encode_of_decodeF h).trans (wordXNN_fields hk)
  case h_2 hk | h_3 hk | h_11 hk | h_12 hk => cases h; exact wordNNN_fields hk
  case h_4 hk | h_5 hk | h_7 hk | h_8 hk | h_13 hk => cases h; exact wordXNN_fields hk

end Sys2Proof

namespace Sys2Proof.Machine

/-! ### The fault record of a step, one equation per case of R35 -/

theorem stepFault_of_fetch_none {s : State} (hw : s.fetch = none) : stepFault s = (fetchFault s).fault :=
  if_pos (State.fetch_eq_none.mp hw)

theorem stepFault_of_decode_none {s : State} {op : Word} (hw : s.fetch = some op) (hd : decode op = none) :
    stepFault s = (unknownFault op s).fault := by
  obtain ⟨hpc, rfl⟩ := State.fetch_eq_some.mp hw
  simp [stepFault, Nat.not_lt.mpr hpc, hd, unknownFault]

theorem stepFault_of_decode {s : State} {op : Word} {i : Instr} (hw : s.fetch = some op) (hd : decode op = some i) :
    stepFault s = (executeFault i s).map fun c => ⟨c, s.pc, some op⟩ := by
  obtain ⟨hpc, rfl⟩ := State.fetch_eq_some.mp hw
  simp [stepFault, Nat.not_lt.mpr hpc, hd]

/-! ### The obligation -/

/-- Settles O9: the cases are fetch, decode and execute in turn; in the last the fault is that of R200's table
(`exec_raisesOrCompletes`), and the word it records is the word fetched (`encode_of_decode`). -/
theorem faultPriority : Obligations.FaultPriority := by
  intro s hn
  cases hw : s.fetch with
  | none => exact ⟨_, step_of_fetch_none hn hw, (stepFault_of_fetch_none hw).symm⟩
  | some op =>
    cases hd : decode op with
    | none => exact ⟨_, step_of_decode_none hn hw hd, (stepFault_of_decode_none hw hd).symm⟩
    | some i =>
      have hx := exec_raisesOrCompletes i s
      rw [stepFault_of_decode hw hd]
      cases hc : executeFault i s with
      | some c =>
        rw [hc, raisesOrCompletes_some, encode_of_decode hd] at hx
        exact ⟨_, step_of_exec_fault hn hw hd hx (by simp), rfl⟩
      | none =>
        rw [hc, raisesOrCompletes_none] at hx
        obtain ⟨u, he, hu⟩ := hx
        have hun : u.fault = none := hu.trans hn
        exact ⟨_, step_of_exec_ok hn hw hd he hun, hun⟩

end Sys2Proof.Machine
end

section
/-!
PROOFS. The state after a reset and after a load that succeeds (spec/70_reset_and_hazards.md R240 to R245), and from these
the statements on the host's reset and load.
-/
namespace Sys2Proof.Machine

/-! ### Reset -/

/-- A reset keeps the model's counter of draws and nothing else of the state it is taken in. -/
theorem frameBut_hostReset (s : State) : FrameBut (fun p => p = .draws) State.reset (hostReset s) := by
  intro p hp
  cases p with
  | draws => exact absurd rfl hp
  | _ => rfl

/-- A step of the host leaves a latched fault latched (R204). -/
theorem hostStep_of_fault {s : State} (hf : s.fault ≠ none) : hostStep s = s := by
  rw [hostStep, step_of_fault hf]

/-! ### Load -/

theorem hostLoad_of_le {bytes : List Byte} (s : State) (h : bytes.length ≤ Config.progMax) :
    hostLoad bytes s =
      ({ hostReset s with mem := (hostReset s).mem.writeBytes Config.progBase bytes }, .ok) :=
  if_neg (Nat.not_lt.mpr h)

theorem hostLoad_of_gt {bytes : List Byte} (s : State) (h : Config.progMax < bytes.length) :
    hostLoad bytes s = (hostReset s, .loadError) :=
  if_pos h

/-- The j-th byte of a block of bytes stands j addresses after the first (R54). -/
theorem Memory.read_writeBytes_add (m : Memory) (a : Nat) {bs : List Byte} {j : Nat} (h : j < bs.length) :
    Memory.read (Memory.writeBytes m a bs) (a + j) = bs[j] := by
  simp [Memory.read_writeBytes, h]

/-- A block of bytes changes the bytes of memory it is written over, each an address `a + j`, and nothing else. -/
theorem frameBut_writeBytes (s : State) (a : Nat) (bs : List Byte) :
    FrameBut (fun p => ∃ j, j < bs.length ∧ p = .byte (a + j)) s { s with mem := s.mem.writeBytes a bs } := by
  intro p hp
  cases p with
  | byte k =>
    have houtside : k < a ∨ a + bs.length ≤ k := by
      by_contra hinside
      exact hp ⟨k - a, by omega, congrArg Part.byte (by omega)⟩
    exact Memory.read_writeBytes_of_outside s.mem a bs k houtside
  | _ => rfl

/-! ### The obligations -/

/-- Settles O54: a program that fits stands at `Config.progBase` (`Memory.read_writeBytes_add`) and changes no other part
of the reset state (`frameBut_writeBytes`); a longer one is `hostLoad_of_gt`. -/
theorem loadPlacesProgram : Obligations.LoadPlacesProgram := by
  intro bytes s
  refine ⟨fun hfits => ?fits, hostLoad_of_gt s⟩
  case fits =>
    exact ⟨_, hostLoad_of_le s hfits, fun j hj => Memory.read_writeBytes_add _ _ hj, rfl,
      frameBut_writeBytes (hostReset s) Config.progBase bytes⟩

/-- Settles O53: the reset state is written whole but for the counter of draws; of the other moves a step of a halted
machine does nothing (`hostStep_of_fault`), and the two host writes do not touch the latch. -/
theorem resetFromAnyState : Obligations.ResetFromAnyState := by
  refine ⟨fun s => ⟨frameBut_hostReset s, rfl, rfl⟩, fun m s hf hcleared => ?clears⟩
  case clears =>
    cases m with
    | reset => exact .inl rfl
    | load bytes => exact .inr ⟨bytes, rfl⟩
    | step => exact absurd ((congrArg State.fault (hostStep_of_fault hf)).symm.trans hcleared) hf
    | setKeys keys => exact absurd hcleared hf
    | clearRedraw => exact absurd hcleared hf

end Sys2Proof.Machine
end

section
/-!
PROOFS. The decoder on the words of each format, the rows of the opcode map that a word matches, and from these the
statements on the encoding (spec/30_encoding.md R71 to R78).
-/
namespace Sys2Proof

/-! ### Every instruction's word -/

/-- The cases are the formats of R71; the words of majors 8, E and F go through the decoder's own tables. -/
theorem decode_encode (i : Instr) : decode (encode i) = some i := by
  cases i with
  | cls | ret => rfl
  | jp | call | ldI | jpV0 => simp [encode, decode]
  | seImm | sneImm | ldImm | addImm | rnd => simp [encode, decode]
  | seReg | sneReg | drw => simp [encode, decode]
  | ldReg | orReg | andReg | xorReg | addReg | subReg | shr | subnReg | shl =>
    exact Machine.decode_wordXYN_eight _ _ _
  | skp | sknp => exact Machine.decode_wordXNN_E _ _
  | ldVxDt | ldDtVx | ldStVx | addI | ldF | ldB | storeRegs | loadRegs | waitKey =>
    exact Machine.decode_wordXNN_F _ _

open Laws.EncodesKnownWord in
/-- The word of every instruction matches the instruction's own row of the opcode map; the cases are the masks of R74. -/
theorem encode_matches_row (i : Instr) : (opcodeMap[i.row.val]'(i.row.isLt)).matches (encode i) = true := by
  cases i with
  | cls => exact cls
  | ret => exact ret
  | jp | call | ldI | jpV0 => exact matches_of (mask_nnn _ _) (by decide)
  | seImm | sneImm | ldImm | addImm | rnd => exact matches_of (mask_xnn _ _ _) (by decide)
  | drw => exact matches_of (mask_dxyn _ _ _ _) (by decide)
  | seReg | sneReg | ldReg | orReg | andReg | xorReg | addReg | subReg | shr | subnReg | shl =>
    exact matches_of (mask_xyn _ _ _ _) (by decide)
  | skp | sknp | ldVxDt | ldDtVx | ldStVx | addI | ldF | ldB | storeRegs | loadRegs | waitKey =>
    exact matches_of (mask_xff _ _ _) (by decide)

theorem row_matches_of_decode {op : Word} {i : Instr} (h : decode op = some i) :
    op &&& (opcodeMap[i.row.val]'(i.row.isLt)).mask = (opcodeMap[i.row.val]'(i.row.isLt)).pattern := by
  have hrow := encode_matches_row i
  rw [encode_of_decode h] at hrow
  exact beq_iff_eq.mp hrow

/-! ### A word that matches a row is known -/

/-- Where the mask is all ones, the word has the digits of the pattern. -/
theorem extractLsb'_eq_of_and {op m p : Word} {start len : Nat} (h : op &&& m = p)
    (hm : m.extractLsb' start len = BitVec.allOnes len) : op.extractLsb' start len = p.extractLsb' start len := by
  rw [← h, BitVec.extractLsb'_and, hm, BitVec.and_allOnes]

/-- The digits on which R78's list depends: the major opcode, and for some majors the whole word, N or NN. -/
theorem unknownWord_congr {op p : Word} (hN1 : fieldN1 op = fieldN1 p) (h0 : fieldN1 p = 0 → op = p)
    (hN : fieldN1 p ∈ [5, 8, 9] → fieldN op = fieldN p) (hNN : fieldN1 p ∈ [0xE, 0xF] → fieldNN op = fieldNN p) :
    unknownWord op = unknownWord p := by
  have hN1' : op.toNat / 4096 = p.toNat / 4096 := by rw [← fieldN1_toNat, ← fieldN1_toNat, hN1]
  simp only [← BitVec.toNat_inj, fieldN1_toNat, fieldN_toNat, fieldNN_toNat, List.mem_cons, List.not_mem_nil,
    or_false] at h0 hN hNN
  simp only [unknownWord, hN1']
  grind

/-- The mask of each row fixes the digits that R78 looks at, and its pattern is no unknown word. -/
theorem row_fixes_digits : ∀ r ∈ opcodeMap, fieldN1 r.mask = BitVec.allOnes 4 ∧
    (fieldN1 r.pattern = 0 → r.mask = BitVec.allOnes 16) ∧
    (fieldN1 r.pattern ∈ [5, 8, 9] → fieldN r.mask = BitVec.allOnes 4) ∧
    (fieldN1 r.pattern ∈ [0xE, 0xF] → fieldNN r.mask = BitVec.allOnes 8) ∧
    unknownWord r.pattern = false := by decide

theorem unknownWord_of_matches {op : Word} {r : OpcodeRow} (hr : r ∈ opcodeMap) (h : op &&& r.mask = r.pattern) :
    unknownWord op = false := by
  obtain ⟨hN1, h0, hN, hNN, hknown⟩ := row_fixes_digits r hr
  rw [← hknown]
  refine unknownWord_congr (extractLsb'_eq_of_and h hN1) (fun e => ?whole)
    (fun e => extractLsb'_eq_of_and h (hN e)) (fun e => extractLsb'_eq_of_and h (hNN e))
  case whole => rw [← h, h0 e, BitVec.and_allOnes]

/-! ### At most one row matches a word -/

/-- Any two rows differ in a bit that both masks fix. -/
theorem rows_disagree : ∀ j k : Fin 34,
    (opcodeMap[j.val]'(j.isLt)).pattern &&& (opcodeMap[k.val]'(k.isLt)).mask =
      (opcodeMap[k.val]'(k.isLt)).pattern &&& (opcodeMap[j.val]'(j.isLt)).mask → j = k := by decide

/-- Two rows that match one word agree in every bit that both masks fix. -/
theorem rows_agree_of_match {op : Word} {r q : OpcodeRow} (hr : op &&& r.mask = r.pattern)
    (hq : op &&& q.mask = q.pattern) : r.pattern &&& q.mask = q.pattern &&& r.mask := by
  rw [← hr, ← hq, BitVec.and_assoc, BitVec.and_assoc, BitVec.and_comm r.mask]

/-! ### The obligations -/

/-- Settles O2: the decoder reads back every field the encoder wrote (`decode_encode`). -/
theorem decodeOfEncode : Obligations.DecodeOfEncode := decode_encode

/-- Settles O3: the cases are the arms of the decoder (`encode_of_decode`). -/
theorem encodeOfDecode : Obligations.EncodeOfDecode := fun _ _ => encode_of_decode

/-- Settles O4: a decoded word is the word of its instruction, which matches its row (`row_matches_of_decode`); a word that
matches a row is none of R78's (`unknownWord_of_matches`); and no two rows agree (`rows_disagree`). -/
theorem decodeFollowsOpcodeMap : Obligations.DecodeFollowsOpcodeMap := by
  refine ⟨fun _ _ => row_matches_of_decode, fun op => ⟨fun hnone r hr h => ?unmatched, fun hno => ?undecoded⟩,
    fun _ j k hj hk => rows_disagree j k (rows_agree_of_match hj hk)⟩
  case unmatched =>
    have hunknown := (decode_eq_none_iff op).mp hnone
    rw [unknownWord_of_matches hr h] at hunknown
    exact Bool.false_ne_true hunknown
  case undecoded =>
    refine Option.eq_none_iff_forall_ne_some.mpr fun i hi => ?_
    exact hno _ (List.getElem_mem i.row.isLt) (row_matches_of_decode hi)

/-- Settles O1: thirteen closed computations of the decoder. -/
theorem sampleWordsDecode : Obligations.SampleWordsDecode := by
  unfold Obligations.SampleWordsDecode
  decide

end Sys2Proof
end

section
/-!
PROOFS. What the instructions that can fault do when they complete, the parts each instruction may write
(spec/00_scope.md R13), and from these the statements on who writes RF, memory, VF and I (spec/10_state.md R22, R30,
spec/20_memory.md R50).
-/
namespace Sys2Proof.Machine

/-! ### The eight instructions that can fault, when they complete, and FX0A -/

theorem rangeExists_of_dataFault {s : State} {n : Nat} (h : dataFault s n = none) : rangeExists s.i n = true := by
  rw [dataFault_eq] at h
  by_contra hr
  simp [hr] at h

theorem lt_of_keyFault {s : State} {x : Reg} (h : keyFault s x = none) : (s.reg x).toNat < 16 := by
  by_contra hlt
  have hgt : (s.reg x).toNat > 0xF := by omega
  simp [keyFault, hgt] at h

theorem State.sp_eq_zero_of_not_pos {s : State} (h : ¬ 0 < s.sp.val) : s.sp = 0 :=
  Fin.ext (Nat.eq_zero_of_not_pos h)

theorem State.sp_eq_full_of_not_lt {s : State} (h : ¬ s.sp.val < 16) : s.sp = 16 :=
  Fin.ext (Nat.le_antisymm (Nat.lt_succ_iff.mp s.sp.isLt) (Nat.not_lt.mp h))

theorem sp_pos_of_executeFault_ret {s : State} (h : executeFault .ret s = none) : 0 < s.sp.val := by
  by_contra h0
  simp [executeFault, State.sp_eq_zero_of_not_pos h0] at h

theorem sp_lt_of_executeFault_call {s : State} {nnn : Addr12} (h : executeFault (.call nnn) s = none) :
    s.sp.val < 16 := by
  by_contra hlt
  simp [executeFault, State.sp_eq_full_of_not_lt hlt] at h

theorem exec_ret_of_pos (s : State) (h : 0 < s.sp.val) : exec .ret s =
    .next (State.jumpTo { s with sp := ⟨s.sp.val - 1, by omega⟩ } (s.stackAt ⟨s.sp.val - 1, by omega⟩ + 2)) :=
  exec_ret_of_pop (State.pop_of_pos h)

theorem exec_call_of_lt (nnn : Addr12) (s : State) (h : s.sp.val < 16) : exec (.call nnn) s =
    .next (State.jumpTo { s with stack := s.stack.set s.sp.val s.pc, sp := ⟨s.sp.val + 1, by omega⟩ } (zextAddr nnn)) :=
  exec_call_of_push (State.push_of_lt s.pc h)

theorem exec_drw_of_completes {x y n : Fin 16} {s : State} (h : executeFault (.drw x y n) s = none) :
    exec (.drw x y n) s = .next (drawn x y n s) :=
  if_pos (rangeExists_of_dataFault h)

theorem exec_ldB_of_completes {x : Reg} {s : State} (h : executeFault (.ldB x) s = none) : exec (.ldB x) s =
    .next { s with mem := s.mem.writeBytes (dataAddr s.i 0) (decimalDigits (s.reg x)) }.advance :=
  if_pos (rangeExists_of_dataFault h)

theorem exec_storeRegs_of_completes {x : Reg} {s : State} (h : executeFault (.storeRegs x) s = none) :
    exec (.storeRegs x) s =
      .next { s with mem := s.mem.writeBytes (dataAddr s.i 0) (s.v.toList.take (x.val + 1)) }.advance :=
  if_pos (rangeExists_of_dataFault h)

theorem exec_loadRegs_of_completes {x : Reg} {s : State} (h : executeFault (.loadRegs x) s = none) :
    exec (.loadRegs x) s = .next { s with v := loadedRegs x s }.advance :=
  if_pos (rangeExists_of_dataFault h)

/-- EX9E and EXA1 complete with a skip or without one. -/
theorem exec_skipOnKey_of_completes {i : Instr} {x : Reg} {s : State} (hi : i = .skp x ∨ i = .sknp x)
    (h : executeFault i s = none) : ∃ c, exec i s = .next (s.skipIf c) := by
  obtain rfl | rfl := hi
  · exact ⟨_, exec_skp_of_lt (lt_of_keyFault h)⟩
  · exact ⟨_, exec_sknp_of_lt (lt_of_keyFault h)⟩

/-- FX0A stalls or writes VX and goes on (R164). -/
theorem exec_waitKey_cases (x : Reg) (s : State) :
    exec (.waitKey x) s = .next s ∨ ∃ b, exec (.waitKey x) s = .next (s.setReg x b).advance := by
  by_cases hp : pressedKeys s.key = []
  · exact .inl (if_pos hp)
  · exact .inr ⟨_, if_neg hp⟩

/-! ### The parts an instruction may write (R13) -/

/-- The parts instruction `i` may change when it completes in state `s`. -/
def Writes (s : State) : Instr → Part → Prop
  | .cls, p => p = .rf ∨ p = .pc ∨ ∃ px py, p = .pixel px py
  | .drw _ _ _, p => p = .reg Reg.vf ∨ p = .rf ∨ p = .pc ∨ ∃ px py, p = .pixel px py
  | .ret, p => p = .sp ∨ p = .pc
  | .call _, p => (∃ h : s.sp.val < 16, p = .stack ⟨s.sp.val, h⟩) ∨ p = .sp ∨ p = .pc
  | .jp _, p | .jpV0 _, p | .seImm _ _, p | .sneImm _ _, p | .seReg _ _, p | .sneReg _ _, p => p = .pc
  | .skp _, p | .sknp _, p => p = .pc
  | .ldImm x _, p | .addImm x _, p | .ldReg x _, p | .orReg x _, p | .andReg x _, p | .xorReg x _, p =>
    p = .reg x ∨ p = .pc
  | .ldVxDt x, p | .waitKey x, p => p = .reg x ∨ p = .pc
  | .addReg x _, p | .subReg x _, p | .shr x _, p | .subnReg x _, p | .shl x _, p =>
    p = .reg x ∨ p = .reg Reg.vf ∨ p = .pc
  | .rnd x _, p => p = .reg x ∨ p = .pc ∨ p = .draws
  | .ldI _, p | .addI _, p | .ldF _, p => p = .i ∨ p = .pc
  | .ldDtVx _, p => p = .dt ∨ p = .pc
  | .ldStVx _, p => p = .st ∨ p = .pc
  | .ldB _, p => p = .pc ∨ ∃ k ≤ 2, p = .byte (dataAddr s.i k)
  | .storeRegs x, p => p = .pc ∨ ∃ k ≤ x, p = .byte (dataAddr s.i k.val)
  | .loadRegs x, p => p = .pc ∨ ∃ k ≤ x, p = .reg k

theorem FrameBut.mono {W W' : Part → Prop} {s t : State} (h : FrameBut W s t) (hW : ∀ p, W p → W' p) :
    FrameBut W' s t := fun p hp => h p fun hw => hp (hW p hw)

theorem frameBut_rnd (x : Reg) (nn : Byte) (s : State) : FrameBut (fun p => p = .reg x ∨ p = .pc ∨ p = .draws) s
    { rndWith (Config.rnd s.draws) x nn s with draws := s.draws + 1 } := by
  have h := (frameBut_setReg_advance s x (Config.rnd s.draws &&& nn)).mono
    (W' := fun p => p = .reg x ∨ p = .pc ∨ p = .draws) fun p => Or.imp_right .inl
  intro p hp
  cases p with
  | draws => exact absurd (.inr (.inr rfl)) hp
  | _ => exact h _ hp

theorem frameBut_storedDigits (x : Reg) (s : State) :
    FrameBut (fun p => p = .pc ∨ ∃ k ≤ 2, p = .byte (dataAddr s.i k)) s
      { s with mem := s.mem.writeBytes (dataAddr s.i 0) (decimalDigits (s.reg x)) }.advance :=
  frameBut_setMem_advance (.inl rfl) fun _ ha =>
    read_storedDigits_of_ne s _ fun k hk e => ha (.inr ⟨k, hk, congrArg Part.byte e⟩)

theorem frameBut_storedRegs (x : Reg) (s : State) :
    FrameBut (fun p => p = .pc ∨ ∃ k ≤ x, p = .byte (dataAddr s.i k.val)) s
      { s with mem := s.mem.writeBytes (dataAddr s.i 0) (s.v.toList.take (x.val + 1)) }.advance :=
  frameBut_setMem_advance (.inl rfl) fun _ ha =>
    read_storedRegs_of_ne s fun k hk e => ha (.inr ⟨k, hk, congrArg Part.byte e⟩)

theorem frameBut_loadedRegs (x : Reg) (s : State) :
    FrameBut (fun p => p = .pc ∨ ∃ k ≤ x, p = .reg k) s { s with v := loadedRegs x s }.advance :=
  frameBut_setRegs_advance (.inl rfl) fun r hr =>
    (reg_loadedRegs s x r).trans (if_neg fun hle => hr (.inr ⟨r, hle, rfl⟩))

/-- An instruction that completes changes only the parts it may write (R13). -/
theorem exec_writes {i : Instr} {s t : State} (hc : executeFault i s = none) (h : exec i s = .next t) :
    FrameBut (Writes s i) s t := by
  -- the state a completing instruction is known to answer is `t`
  have out {u : State} (he : exec i s = .next u) : t = u := Host.Outcome.next.inj (h.symm.trans he)
  cases i with
  | cls => exact out rfl ▸ frameBut_cls s
  | drw x y n => exact out (exec_drw_of_completes hc) ▸ frameBut_drawn x y n s
  | ret =>
    have hp := State.pop_of_pos (sp_pos_of_executeFault_ret hc)
    exact out (exec_ret_of_pop hp) ▸ (frameBut_pop hp).jumpTo (.inr rfl) _
  | call nnn =>
    have hsp := sp_lt_of_executeFault_call hc
    have hp := State.push_of_lt s.pc hsp
    exact out (exec_call_of_push hp) ▸
      ((frameBut_push hsp hp).jumpTo (.inr (.inr rfl)) _).mono fun p => Or.imp_left fun e => ⟨hsp, e⟩
  | jp | jpV0 | seImm | sneImm | seReg | sneReg => exact out rfl ▸ frameBut_jumpTo s _
  | skp x =>
    obtain ⟨c, he⟩ := exec_skipOnKey_of_completes (.inl rfl) hc
    exact out he ▸ frameBut_jumpTo s _
  | sknp x =>
    obtain ⟨c, he⟩ := exec_skipOnKey_of_completes (.inr rfl) hc
    exact out he ▸ frameBut_jumpTo s _
  | ldImm x | addImm x | ldReg x | orReg x | andReg x | xorReg x | ldVxDt x =>
    exact out rfl ▸ frameBut_setReg_advance s x _
  | waitKey x =>
    obtain he | ⟨b, he⟩ := exec_waitKey_cases x s
    · rw [out he]
      exact frameBut_refl _ s
    · exact out he ▸ frameBut_setReg_advance s x b
  | addReg x | subReg x | shr x | subnReg x | shl x => exact out rfl ▸ frameBut_setFlagThenReg_advance s x _ _
  | rnd x nn => exact out rfl ▸ frameBut_rnd x nn s
  | ldI | addI | ldF => exact out rfl ▸ frameBut_setI_advance s _
  | ldDtVx => exact out rfl ▸ frameBut_setDt_advance s _
  | ldStVx => exact out rfl ▸ frameBut_setSt_advance s _
  | ldB x => exact out (exec_ldB_of_completes hc) ▸ frameBut_storedDigits x s
  | storeRegs x => exact out (exec_storeRegs_of_completes hc) ▸ frameBut_storedRegs x s
  | loadRegs x => exact out (exec_loadRegs_of_completes hc) ▸ frameBut_loadedRegs x s

theorem not_writes_fault (i : Instr) (s : State) : ¬ Writes s i .fault := by
  cases i <;> simp [Writes]

theorem exec_fault_eq {i : Instr} {s t : State} (hc : executeFault i s = none) (h : exec i s = .next t) :
    t.fault = s.fault :=
  exec_writes hc h .fault (not_writes_fault i s)

theorem not_writes_key (i : Instr) (s : State) (k : Reg) : ¬ Writes s i (.key k) := by
  cases i <;> simp [Writes]

theorem writes_rf_iff {i : Instr} {s : State} : Writes s i .rf ↔ i = .cls ∨ ∃ x y n, i = .drw x y n := by
  cases i <;> simp [Writes]

theorem writes_byte_iff {i : Instr} {s : State} {a : Nat} : Writes s i (.byte a) ↔
    (∃ x, i = .ldB x ∧ ∃ k ≤ 2, a = dataAddr s.i k) ∨ (∃ x, i = .storeRegs x ∧ ∃ k ≤ x, a = dataAddr s.i k.val) := by
  cases i <;> simp [Writes]

/-- An instruction whose execute phase answers `t` faulted, changing FAULT alone, or completed. -/
theorem exec_cases {i : Instr} {s t : State} (h : exec i s = .next t) :
    (∃ c, executeFault i s = some c ∧ t = raise c (some (encode i)) s) ∨ executeFault i s = none := by
  cases hc : executeFault i s with
  | none => exact .inr rfl
  | some c =>
    have hx := exec_raisesOrCompletes i s
    rw [hc, raisesOrCompletes_some] at hx
    exact .inl ⟨c, rfl, Host.Outcome.next.inj (h.symm.trans hx)⟩

theorem frameBut_raise (c : Fault) (op : Option Word) (s : State) :
    FrameBut (fun p => p = .fault) s (raise c op s) := by
  intro p hp
  cases p with
  | fault => exact absurd rfl hp
  | _ => rfl

/-- A part other than FAULT that an instruction changes is one it may write, faulting or not. -/
theorem writes_of_changed {i : Instr} {s t : State} {p : Part} (h : exec i s = .next t) (hf : p ≠ .fault)
    (hp : ¬ Same p s t) : Writes s i p := by
  by_contra hw
  obtain ⟨c, -, rfl⟩ | hc := exec_cases h
  · exact hp (frameBut_raise c _ s p hf)
  · exact hp (exec_writes hc h p hw)

/-! ### The obligations -/

/-- Settles O41: 00E0 and a draw raise RF; it is among the parts of no other instruction (`exec_writes`). -/
theorem redrawFlagRaisedOnlyByDisplay : Obligations.RedrawFlagRaisedOnlyByDisplay := by
  intro i s t h hc
  refine ⟨?raised, fun hcls hdrw => exec_writes hc h .rf fun hw => ?kept⟩
  case raised =>
    rintro (rfl | ⟨x, y, n, rfl⟩)
    · cases h
      rfl
    · rw [exec_drw_of_completes hc] at h
      cases h
      rfl
  case kept =>
    obtain rfl | ⟨x, y, n, rfl⟩ := writes_rf_iff.mp hw
    · exact hcls rfl
    · exact hdrw x y n rfl

/-- Settles O42: the bytes an instruction may write (`writes_of_changed`) are those of FX33 and FX55. -/
theorem memoryWrittenOnlyByStores : Obligations.MemoryWrittenOnlyByStores := fun _ _ _ _ h ha =>
  writes_byte_iff.mp (writes_of_changed h (by simp) ha)

/-- Settles O43: the registers an instruction may write (`writes_of_changed`), instruction by instruction. -/
theorem flagRegisterWriters : Obligations.FlagRegisterWriters := by
  intro i s t h hvf
  have hw : Writes s i (.reg Reg.vf) := writes_of_changed h (by simp) hvf
  cases i with
  | loadRegs x =>
    obtain ⟨k, hk, rfl⟩ : ∃ k ≤ x, Reg.vf = k := by simpa [Writes] using hw
    simp [Fin.last_le_iff.mp hk]
  | _ => simp_all [Writes]

/-- Settles O44: ANNN, FX1E and FX29 are the instructions that may write I; NNN (`loadIndex`) is below 4096 and five times a
byte (`pointAtGlyph`) is at most 1275. -/
theorem indexLeavesMemoryOnlyByAdd : Obligations.IndexLeavesMemoryOnlyByAdd := by
  intro i s t h hle hgt
  have hw : Writes s i .i := writes_of_changed h (by simp) fun e => by
    have e : t.i = s.i := e
    rw [e] at hgt
    omega
  cases i with
  | ldI nnn =>
    obtain ⟨-, u, he, hi, -⟩ := loadIndex nnn s
    cases h.symm.trans he
    have hlt := nnn.isLt
    omega
  | ldF x =>
    obtain ⟨-, u, he, hi, -⟩ := pointAtGlyph x s
    cases h.symm.trans he
    have hlt := (s.reg x).isLt
    omega
  | addI x => exact ⟨x, rfl⟩
  | _ => simp [Writes] at hw

end Sys2Proof.Machine
end

section
/-!
PROOFS. The record a step latches describes its state, the three ways a step can go, and from these the statements on faults
and on the keypad (spec/60_exceptions.md R200, R204, spec/10_state.md R29).
-/
namespace Sys2Proof.Machine

/-! ### The fault a step latches -/

theorem describes_of_dataFault {s : State} {n : Nat} {c : Fault} (h : dataFault s n = some c) :
    FaultRecord.Describes ⟨c, s.pc, s.fetch⟩ s := by
  rw [dataFault_eq] at h
  split at h
  · cases h
  · cases h
    exact ⟨rfl, rfl, firstBadAddr_toNat s.i⟩

theorem describes_of_keyFault {s : State} {x : Reg} {c : Fault} (h : keyFault s x = some c) :
    FaultRecord.Describes ⟨c, s.pc, s.fetch⟩ s := by
  unfold keyFault at h
  split at h
  · next hgt =>
    cases h
    exact ⟨rfl, rfl, hgt, x, rfl⟩
  · cases h

/-- The fault of R200's table records the value that raised it. -/
theorem describes_of_executeFault {i : Instr} {s : State} {c : Fault} (h : executeFault i s = some c) :
    FaultRecord.Describes ⟨c, s.pc, s.fetch⟩ s := by
  cases i with
  | call | ret =>
    obtain ⟨hsp, hc⟩ := Option.ite_none_right_eq_some.mp h
    cases hc
    exact ⟨rfl, rfl, rfl, hsp⟩
  | drw | ldB | storeRegs | loadRegs => exact describes_of_dataFault h
  | skp | sknp => exact describes_of_keyFault h
  | _ => cases h

/-- The record a step latches describes the state the step starts in (R31, R204); the cases are those of R207. -/
theorem describes_of_stepFault {s : State} {f : FaultRecord} (h : stepFault s = some f) : f.Describes s := by
  cases hw : s.fetch with
  | none =>
    rw [stepFault_of_fetch_none hw] at h
    cases h
    exact ⟨rfl, hw.symm, rfl, State.fetch_eq_none.mp hw⟩
  | some op =>
    cases hd : decode op with
    | none =>
      rw [stepFault_of_decode_none hw hd] at h
      cases h
      exact ⟨rfl, hw.symm, rfl, hd⟩
    | some i =>
      rw [stepFault_of_decode hw hd, ← hw] at h
      obtain ⟨c, hc, rfl⟩ := Option.map_eq_some_iff.mp h
      exact describes_of_executeFault hc

/-! ### What a step can do -/

/-- A step keeps a halted machine as it is, raises the fault that `stepFault` names, or runs the fetched instruction to its
end and ticks. -/
theorem step_next_cases {s t : State} (h : step s = .next t) :
    t = s ∨ (∃ c, stepFault s = some ⟨c, s.pc, s.fetch⟩ ∧ t = raise c s.fetch s) ∨
    (∃ op i u, s.fault = none ∧ s.fetch = some op ∧ decode op = some i ∧ executeFault i s = none ∧
      exec i s = .next u ∧ t = u.tick) := by
  have out {u : State} (hs : step s = .next u) : t = u := Host.Outcome.next.inj (h.symm.trans hs)
  obtain ⟨-, hs⟩ | ⟨-, hpc, hs⟩ | ⟨op, -, hw, hd, hs⟩ | ⟨op, i, hn, hw, hd, -⟩ := step_cases s
  · exact .inl (out hs)
  · have hw := State.fetch_eq_none.mpr hpc
    rw [hw]
    exact .inr (.inl ⟨_, stepFault_of_fetch_none hw, out hs⟩)
  · rw [hw]
    exact .inr (.inl ⟨_, stepFault_of_decode_none hw hd, out hs⟩)
  · have hx := exec_raisesOrCompletes i s
    cases hc : executeFault i s with
    | some c =>
      rw [hc, raisesOrCompletes_some, encode_of_decode hd] at hx
      rw [hw]
      exact .inr (.inl ⟨c, by rw [stepFault_of_decode hw hd, hc]; rfl, out (step_of_exec_fault hn hw hd hx (by simp))⟩)
    | none =>
      rw [hc, raisesOrCompletes_none] at hx
      obtain ⟨u, he, hu⟩ := hx
      exact .inr (.inr ⟨op, i, u, hn, hw, hd, hc, he, out (step_of_exec_ok hn hw hd he (hu.trans hn))⟩)

/-! ### The obligations -/

/-- Settles O10: `exec_raisesOrCompletes`, for each answer of R200's table. -/
theorem executeFaultsAsTabled : Obligations.ExecuteFaultsAsTabled := by
  intro i s
  have hx := exec_raisesOrCompletes i s
  cases hc : executeFault i s with
  | some c =>
    rw [hc, raisesOrCompletes_some] at hx
    refine ⟨_, hx, fun c' e => ?_, fun e => by cases e⟩
    cases e
    rfl
  | none =>
    rw [hc, raisesOrCompletes_none] at hx
    obtain ⟨u, he, hu⟩ := hx
    exact ⟨u, he, fun c' e => (by cases e), fun _ => hu⟩

/-- Settles O8: `faultPriority` gives the next state, and of the ways to reach it (`step_next_cases`) only the fault leaves
FAULT set. -/
theorem faultsArePrecise : Obligations.FaultsArePrecise := by
  refine ⟨fun s hn => ?precise, fun _ => step_of_fault⟩
  case precise =>
    obtain ⟨t, hs, -⟩ := faultPriority s hn
    refine ⟨t, hs, fun ht => ?_⟩
    obtain rfl | ⟨c, -, rfl⟩ | ⟨op, i, u, -, -, -, hc, he, rfl⟩ := step_next_cases hs
    · exact absurd hn ht
    · exact ⟨c, rfl⟩
    · exact absurd ((exec_fault_eq hc he).trans hn) ht

/-- Settles O40: no instruction may write a key, and neither a fault nor the tick touches the keypad. -/
theorem stepNeverWritesKeys : Obligations.StepNeverWritesKeys := by
  intro s t hs
  obtain rfl | ⟨c, -, rfl⟩ | ⟨op, i, u, -, -, -, hc, he, rfl⟩ := step_next_cases hs
  · rfl
  · rfl
  · exact Vector.ext fun k hk => exec_writes hc he (.key ⟨k, hk⟩) (not_writes_key i s ⟨k, hk⟩)

end Sys2Proof.Machine
end

section
/-!
PROOFS. Where an instruction that completes leaves PC, the stack and memory, and from this the statements on the invariant:
reset meets it, and every step and every move of the host keeps it (spec/10_state.md R24, R37, spec/60_exceptions.md R204,
R216).
-/
namespace Sys2Proof.Machine

/-! ### Memory -/

/-- The range check keeps a block of data inside the address space (R56). -/
theorem dataAddr_add_le_of_range {i0 : Word} {n : Nat} (h : rangeExists i0 (n + 1) = true) :
    dataAddr i0 0 + (n + 1) ≤ Config.memSize := by
  have hlast := (rangeExists_succ i0 n).mp h
  simp only [dataAddr, Config.memSize] at hlast ⊢
  omega

/-- FX33 and FX55 store inside the address space; no other instruction touches memory. -/
theorem exec_memory_wf {i : Instr} {s t : State} (hm : s.mem.wf) (hc : executeFault i s = none)
    (h : exec i s = .next t) : t.mem.wf := by
  have out {u : State} (he : exec i s = .next u) : t = u := Host.Outcome.next.inj (h.symm.trans he)
  cases i with
  | ldB x =>
    rw [out (exec_ldB_of_completes hc)]
    exact Memory.writeBytes_wf hm (dataAddr_add_le_of_range (n := 2) (rangeExists_of_dataFault hc))
  | storeRegs x =>
    rw [out (exec_storeRegs_of_completes hc)]
    refine Memory.writeBytes_wf hm ?_
    rw [storedRegs_length]
    exact dataAddr_add_le_of_range (rangeExists_of_dataFault hc)
  | ret => rwa [out (exec_ret_of_pos s (sp_pos_of_executeFault_ret hc))]
  | call nnn => rwa [out (exec_call_of_lt nnn s (sp_lt_of_executeFault_call hc))]
  | drw => rwa [out (exec_drw_of_completes hc)]
  | loadRegs => rwa [out (exec_loadRegs_of_completes hc)]
  | skp x =>
    obtain ⟨c, he⟩ := exec_skipOnKey_of_completes (.inl rfl) hc
    rwa [out he]
  | sknp x =>
    obtain ⟨c, he⟩ := exec_skipOnKey_of_completes (.inr rfl) hc
    rwa [out he]
  | waitKey x =>
    obtain he | ⟨b, he⟩ := exec_waitKey_cases x s
    · rwa [out he]
    · rwa [out he]
  | _ => rwa [out rfl]

/-! ### PC and the stack (R24) -/

theorem toNat_add_le (a b : Word) : (a + b).toNat ≤ a.toNat + b.toNat :=
  (BitVec.toNat_add a b).trans_le (Nat.mod_le _ _)

theorem pc_skipIf_le (s : State) (c : Bool) : (s.skipIf c).pc.toNat ≤ s.pc.toNat + 4 := by
  refine (toNat_add_le s.pc _).trans (Nat.add_le_add_left ?_ _)
  cases c <;> decide

/-- The furthest PC is that of BNNN, 0xFF + 0xFFF. -/
theorem exec_pc_le {i : Instr} {s t : State} (hpc : s.pc.toNat ≤ 0xFFE) (hstack : ∀ j, (s.stackAt j).toNat ≤ 0xFFE)
    (hc : executeFault i s = none) (h : exec i s = .next t) : t.pc.toNat ≤ 0x10FE := by
  have out {u : State} (he : exec i s = .next u) : t = u := Host.Outcome.next.inj (h.symm.trans he)
  have target (nnn : Addr12) : (zextAddr nnn).toNat ≤ 0x10FE := by
    have hlt := nnn.isLt
    rw [zextAddr_toNat]
    omega
  have following (w : Word) (hw : w.toNat ≤ 0xFFE) : (w + 2).toNat ≤ 0x10FE := (toNat_add_le w 2).trans (by simp; omega)
  have skip (c : Bool) : (s.skipIf c).pc.toNat ≤ 0x10FE := (pc_skipIf_le s c).trans (by omega)
  cases i with
  | ret =>
    rw [out (exec_ret_of_pos s (sp_pos_of_executeFault_ret hc))]
    exact following _ (hstack _)
  | call nnn =>
    rw [out (exec_call_of_lt nnn s (sp_lt_of_executeFault_call hc))]
    exact target nnn
  | jp nnn =>
    rw [out rfl]
    exact target nnn
  | jpV0 nnn =>
    have hb := (s.reg Reg.v0).isLt
    have hn := nnn.isLt
    rw [out rfl, State.jumpTo_pc, zextByte_add_zextAddr_toNat]
    omega
  | seImm | sneImm | seReg | sneReg =>
    rw [out rfl]
    exact skip _
  | skp x =>
    obtain ⟨c, he⟩ := exec_skipOnKey_of_completes (.inl rfl) hc
    rw [out he]
    exact skip c
  | sknp x =>
    obtain ⟨c, he⟩ := exec_skipOnKey_of_completes (.inr rfl) hc
    rw [out he]
    exact skip c
  | waitKey x =>
    obtain he | ⟨b, he⟩ := exec_waitKey_cases x s
    · rw [out he]
      omega
    · rw [out he]
      exact following _ hpc
  | drw =>
    rw [out (exec_drw_of_completes hc)]
    exact following _ hpc
  | ldB =>
    rw [out (exec_ldB_of_completes hc)]
    exact following _ hpc
  | storeRegs =>
    rw [out (exec_storeRegs_of_completes hc)]
    exact following _ hpc
  | loadRegs =>
    rw [out (exec_loadRegs_of_completes hc)]
    exact following _ hpc
  | _ =>
    rw [out rfl]
    exact following _ hpc

/-- The only stack entry an instruction may write is the one a call pushes. -/
theorem call_of_writes_stack {i : Instr} {s : State} {j : Fin 16} (h : Writes s i (.stack j)) :
    ∃ nnn, ∃ hsp : s.sp.val < 16, i = .call nnn ∧ j = ⟨s.sp.val, hsp⟩ := by
  cases i <;> simp_all [Writes]

/-- The entry a call pushes is its own address, which was fetched from. -/
theorem exec_stackAt_le {i : Instr} {s t : State} (hpc : s.pc.toNat ≤ 0xFFE)
    (hstack : ∀ j, (s.stackAt j).toNat ≤ 0xFFE) (hc : executeFault i s = none) (h : exec i s = .next t) (j : Fin 16) :
    (t.stackAt j).toNat ≤ 0xFFE := by
  by_cases hw : Writes s i (.stack j)
  · obtain ⟨nnn, hsp, rfl, rfl⟩ := call_of_writes_stack hw
    have hp := State.push_of_lt s.pc hsp
    cases h.symm.trans (exec_call_of_push hp)
    rwa [State.stackAt_jumpTo, stackAt_push hsp hp]
  · have hsame : t.stackAt j = s.stackAt j := exec_writes hc h (.stack j) hw
    rw [hsame]
    exact hstack j

/-! ### The latch -/

/-- A machine without a latched fault has no latch to be untruthful. -/
theorem faultTruthful_of_none {s : State} (h : s.fault = none) : s.FaultTruthful := by
  intro f hf
  rw [h] at hf
  cases hf

/-- The tick leaves everything the invariant speaks of. -/
theorem inv_tick {s : State} (hm : s.mem.wf) (hb : s.Bounded) (hn : s.fault = none) : s.tick.Inv :=
  ⟨hm, hb, faultTruthful_of_none hn⟩

/-! ### The obligations -/

/-- Settles O48: memory lists nothing, PC is 0x200, every stack entry is 0, and no fault is latched. -/
theorem resetMeetsInvariant : Obligations.ResetMeetsInvariant where
  memory := Memory.nil_wf
  bounded := ⟨by decide, by decide⟩
  latch := faultTruthful_of_none rfl

/-- Settles O49: a fault changes only FAULT, and its record describes the state (`describes_of_stepFault`); a completed
instruction keeps memory canonical (`exec_memory_wf`), PC (`exec_pc_le`) and the stack (`exec_stackAt_le`) bounded, and
latches nothing. -/
theorem stepKeepsInvariant : Obligations.StepKeepsInvariant := by
  intro s t hinv hs
  obtain rfl | ⟨c, hf, rfl⟩ | ⟨op, i, u, hn, hw, -, hc, he, rfl⟩ := step_next_cases hs
  · exact hinv
  · refine ⟨hinv.memory, hinv.bounded, fun f hf' => ?_⟩
    cases hf'
    exact describes_of_stepFault hf
  · obtain ⟨-, hstack⟩ := hinv.bounded
    obtain ⟨hpc, -⟩ := State.fetch_eq_some.mp hw
    exact inv_tick (exec_memory_wf hinv.memory hc he)
      ⟨exec_pc_le hpc hstack hc he, exec_stackAt_le hpc hstack hc he⟩ ((exec_fault_eq hc he).trans hn)

/-- Settles O50: load stores at most 3584 bytes from 0x200 on over the reset state; a step is `stepKeepsInvariant`; no
part of the invariant depends on the keypad or on RF. -/
theorem hostMovesKeepInvariant : Obligations.HostMovesKeepInvariant := by
  intro m s hinv
  have hreset : (hostReset s).Inv := ⟨Memory.nil_wf, resetMeetsInvariant.bounded, faultTruthful_of_none rfl⟩
  cases m with
  | reset => exact hreset
  | load bytes =>
    show (hostLoad bytes s).1.Inv
    by_cases hfits : bytes.length ≤ Config.progMax
    · rw [hostLoad_of_le s hfits]
      have hend : Config.progBase + bytes.length ≤ Config.memSize := Nat.add_le_add_left hfits _
      exact ⟨Memory.writeBytes_wf Memory.nil_wf hend, hreset.bounded, faultTruthful_of_none rfl⟩
    · rw [hostLoad_of_gt s (Nat.lt_of_not_le hfits)]
      exact hreset
  | step =>
    show (hostStep s).Inv
    unfold hostStep
    cases hs : step s with
    | next t => exact stepKeepsInvariant s t hinv hs
    | fault => exact hinv
    | refused => exact hinv
  | setKeys keys => exact ⟨hinv.memory, hinv.bounded, hinv.latch⟩
  | clearRedraw => exact ⟨hinv.memory, hinv.bounded, hinv.latch⟩

end Sys2Proof.Machine
end

section
/-!
PROOFS. What a step does not read: a relation between states that every part of a step keeps is kept by the step, and from
this the statements on the sound timer, the redraw flag and stale stack entries (spec/10_state.md R25, R27, R30).
-/
namespace Sys2Proof.Machine

/-- Two answers are next states related by `R`. -/
def BothNext (R : State → State → Prop) (a b : Host.Outcome State Fault Refusal) : Prop :=
  ∃ t u, a = .next t ∧ b = .next u ∧ R t u

theorem bothNext_next {R : State → State → Prop} {t u : State} (h : R t u) : BothNext R (.next t) (.next u) :=
  ⟨t, u, rfl, rfl, h⟩

theorem bothNext_ite {R : State → State → Prop} {P : Prop} [Decidable P] {a b a' b' : Host.Outcome State Fault Refusal}
    (ha : BothNext R a a') (hb : BothNext R b b') : BothNext R (if P then a else b) (if P then a' else b') := by
  split
  · exact ha
  · exact hb

/-- EX9E and EXA1 in two states that agree in VX and the keypad: both skip alike or both fault alike. -/
theorem bothNext_skipOnKey {R : State → State → Prop} {s u : State} {i : Instr} {x : Reg}
    (hi : i = .skp x ∨ i = .sknp x) (hreg : u.reg x = s.reg x) (hkey : u.key = s.key)
    (hskip : ∀ c, R (s.skipIf c) (u.skipIf c)) (hraise : ∀ c op, R (raise c op s) (raise c op u)) :
    BothNext R (exec i s) (exec i u) := by
  by_cases hlt : (s.reg x).toNat < 16
  · have hult : (u.reg x).toNat < 16 := hreg ▸ hlt
    obtain rfl | rfl := hi
    · rw [exec_skp_of_lt hlt, exec_skp_of_lt hult]
      simp only [hreg, hkey]
      exact bothNext_next (hskip _)
    · rw [exec_sknp_of_lt hlt, exec_sknp_of_lt hult]
      simp only [hreg, hkey]
      exact bothNext_next (hskip _)
  · have hgt : 0xF < (s.reg x).toNat := by omega
    have hcause (v : State) : executeFault i v = keyFault v x := by
      obtain rfl | rfl := hi <;> rfl
    rw [exec_of_keyIndex_gt (hcause s) hgt, exec_of_keyIndex_gt (hcause u) (hreg ▸ hgt), hreg]
    exact bothNext_next (hraise _ _)

/-- A relation between two states whose difference no part of a step reads: the two agree in FAULT, PC and memory, and
raising a fault, the tick and every instruction's execute phase keep it. -/
structure Unread (R : State → State → Prop) : Prop where
  fault_eq : ∀ {s u}, R s u → u.fault = s.fault
  pc_eq : ∀ {s u}, R s u → u.pc = s.pc
  mem_eq : ∀ {s u}, R s u → u.mem = s.mem
  raise_raise : ∀ {s u}, R s u → ∀ c op, R (raise c op s) (raise c op u)
  tick_tick : ∀ {s u}, R s u → R s.tick u.tick
  exec_exec : ∀ {s u}, R s u → ∀ i, BothNext R (exec i s) (exec i u)

/-- Related states take the same way through a step (R35). -/
theorem Unread.step_step {R : State → State → Prop} (hR : Unread R) {s u : State} (h : R s u) :
    BothNext R (step s) (step u) := by
  have hfault := hR.fault_eq h
  by_cases hn : s.fault = none
  · have hnu : u.fault = none := hfault.trans hn
    have hfetch : u.fetch = s.fetch := State.fetch_congr (hR.pc_eq h) (hR.mem_eq h)
    cases hw : s.fetch with
    | none =>
      rw [step_of_fetch_none hn hw, step_of_fetch_none hnu (hfetch.trans hw), fetchFault, fetchFault, hR.pc_eq h]
      exact bothNext_next (hR.raise_raise h _ _)
    | some op =>
      have hwu : u.fetch = some op := hfetch.trans hw
      cases hd : decode op with
      | none =>
        rw [step_of_decode_none hn hw hd, step_of_decode_none hnu hwu hd]
        exact bothNext_next (hR.raise_raise h _ _)
      | some i =>
        obtain ⟨t, w, ht, hu, htw⟩ := hR.exec_exec h i
        rw [step_of_decode hn hw hd, step_of_decode hnu hwu hd, ht, hu]
        refine bothNext_next ?_
        by_cases hf : t.fault = none
        · rw [endStep_of_ok hf, endStep_of_ok ((hR.fault_eq htw).trans hf)]
          exact hR.tick_tick htw
        · rw [endStep_of_fault hf, endStep_of_fault (hR.fault_eq htw ▸ hf)]
          exact htw
  · rw [step_of_fault hn, step_of_fault (hfault ▸ hn)]
    exact bothNext_next h

/-! ### The sound timer and the redraw flag -/

/-- `u` is `s` but for ST and RF. -/
def SameButSoundRedraw (s u : State) : Prop := ∃ b f, u = { s with st := b, rf := f }

theorem exec_sameButSoundRedraw {s u : State} (h : SameButSoundRedraw s u) (i : Instr) :
    BothNext SameButSoundRedraw (exec i s) (exec i u) := by
  obtain ⟨b, f, rfl⟩ := h
  have same (t : State) : SameButSoundRedraw t { t with st := b, rf := f } := ⟨b, f, rfl⟩
  cases i with
  | cls => exact bothNext_next ⟨b, true, rfl⟩
  | drw => exact bothNext_ite (bothNext_next ⟨b, true, rfl⟩) (bothNext_next (same _))
  | ldStVx x => exact bothNext_next ⟨s.reg x, f, rfl⟩
  | ret =>
    by_cases hsp : 0 < s.sp.val
    · exact ⟨_, _, exec_ret_of_pos s hsp, exec_ret_of_pos { s with st := b, rf := f } hsp, same _⟩
    · have h0 := State.sp_eq_zero_of_not_pos hsp
      exact ⟨_, _, exec_ret_of_empty h0, exec_ret_of_empty h0, same _⟩
  | call nnn =>
    by_cases hsp : s.sp.val < 16
    · exact ⟨_, _, exec_call_of_lt nnn s hsp, exec_call_of_lt nnn { s with st := b, rf := f } hsp, same _⟩
    · have h16 := State.sp_eq_full_of_not_lt hsp
      exact ⟨_, _, exec_call_of_full nnn h16, exec_call_of_full nnn h16, same _⟩
  | skp x => exact bothNext_skipOnKey (.inl rfl) rfl rfl (fun _ => same _) (fun _ _ => same _)
  | sknp x => exact bothNext_skipOnKey (.inr rfl) rfl rfl (fun _ => same _) (fun _ _ => same _)
  | ldB | storeRegs | loadRegs | waitKey => exact bothNext_ite (bothNext_next (same _)) (bothNext_next (same _))
  | _ => exact bothNext_next (same _)

theorem unread_soundRedraw : Unread SameButSoundRedraw where
  fault_eq := by rintro s u ⟨b, f, rfl⟩; rfl
  pc_eq := by rintro s u ⟨b, f, rfl⟩; rfl
  mem_eq := by rintro s u ⟨b, f, rfl⟩; rfl
  raise_raise := by rintro s u ⟨b, f, rfl⟩ c op; exact ⟨b, f, rfl⟩
  tick_tick := by rintro s u ⟨b, f, rfl⟩; exact ⟨tickDown b, f, rfl⟩
  exec_exec := exec_sameButSoundRedraw

/-! ### Stack entries at and above SP -/

/-- `u` is `s` but for stack entries at and above SP. -/
def SameButStaleEntries (s u : State) : Prop :=
  ∃ k : Vector Word 16, u = { s with stack := k } ∧ ∀ j : Fin 16, j.val < s.sp.val → k[j.val] = s.stackAt j

theorem exec_sameButStaleEntries {s u : State} (h : SameButStaleEntries s u) (i : Instr) :
    BothNext SameButStaleEntries (exec i s) (exec i u) := by
  obtain ⟨k, rfl, hk⟩ := h
  -- what leaves the stack and SP alone keeps the relation
  have same {t : State} (hsp : t.sp = s.sp) (hstack : t.stack = s.stack) :
      SameButStaleEntries t { t with stack := k } :=
    ⟨k, rfl, fun j hj => (hk j (hsp ▸ hj)).trans (State.stackAt_congr hstack j).symm⟩
  cases i with
  | ret =>
    by_cases hsp : 0 < s.sp.val
    · have htop := hk ⟨s.sp.val - 1, by omega⟩ (Nat.sub_lt hsp Nat.one_pos)
      refine ⟨_, _, exec_ret_of_pos s hsp, exec_ret_of_pos { s with stack := k } hsp, k, ?popped, ?below⟩
      case popped =>
        exact congrArg (fun w => State.jumpTo { s with stack := k, sp := ⟨s.sp.val - 1, by omega⟩ } (w + 2)) htop
      case below => exact fun j hj => hk j (Nat.lt_of_lt_of_le hj (Nat.sub_le _ _))
    · have h0 := State.sp_eq_zero_of_not_pos hsp
      exact ⟨_, _, exec_ret_of_empty h0, exec_ret_of_empty h0, same rfl rfl⟩
  | call nnn =>
    by_cases hsp : s.sp.val < 16
    · refine ⟨_, _, exec_call_of_lt nnn s hsp, exec_call_of_lt nnn { s with stack := k } hsp, k.set s.sp.val s.pc, rfl,
        fun j hj => ?_⟩
      have hstale : s.sp.val ≠ j.val → k[j.val] = s.stackAt j := fun hne => hk j (by
        have : j.val < s.sp.val + 1 := hj
        omega)
      show (k.set s.sp.val s.pc)[j.val] = (s.stack.set s.sp.val s.pc)[j.val]
      rw [Vector.getElem_set, Vector.getElem_set]
      split
      · rfl
      · next hne => exact hstale hne
    · have h16 := State.sp_eq_full_of_not_lt hsp
      exact ⟨_, _, exec_call_of_full nnn h16, exec_call_of_full nnn h16, same rfl rfl⟩
  | skp x => exact bothNext_skipOnKey (.inl rfl) rfl rfl (fun _ => same rfl rfl) (fun _ _ => same rfl rfl)
  | sknp x => exact bothNext_skipOnKey (.inr rfl) rfl rfl (fun _ => same rfl rfl) (fun _ _ => same rfl rfl)
  | drw | ldB | storeRegs | loadRegs | waitKey =>
    exact bothNext_ite (bothNext_next (same rfl rfl)) (bothNext_next (same rfl rfl))
  | _ => exact bothNext_next (same rfl rfl)

theorem unread_staleEntries : Unread SameButStaleEntries where
  fault_eq := by rintro s u ⟨k, rfl, -⟩; rfl
  pc_eq := by rintro s u ⟨k, rfl, -⟩; rfl
  mem_eq := by rintro s u ⟨k, rfl, -⟩; rfl
  raise_raise := by rintro s u ⟨k, rfl, hk⟩ c op; exact ⟨k, rfl, hk⟩
  tick_tick := by rintro s u ⟨k, rfl, hk⟩; exact ⟨k, rfl, hk⟩
  exec_exec := exec_sameButStaleEntries

/-! ### The obligations -/

/-- Settles O45: no part of a step reads ST or RF (`unread_soundRedraw`). -/
theorem soundTimerAndRedrawNeverRead : Obligations.SoundTimerAndRedrawNeverRead := by
  intro s b f
  obtain ⟨t, _, ht, hu, b', f', rfl⟩ := unread_soundRedraw.step_step (s := s) ⟨b, f, rfl⟩
  exact ⟨t, _, ht, hu, rfl⟩

/-- Settles O46: no part of a step reads an entry at or above SP (`unread_staleEntries`): a return reads the one below SP,
and a call writes the one at SP, in both states the same. -/
theorem staleStackEntriesNeverRead : Obligations.StaleStackEntriesNeverRead := by
  intro s stack' h
  obtain ⟨t, _, ht, hu, k, rfl, hk⟩ := unread_staleEntries.step_step (s := s) ⟨stack', rfl, h⟩
  exact ⟨t, _, ht, hu, rfl, hk⟩

end Sys2Proof.Machine
end

section
/-!
PROOFS. Statements on runs and pairs of instructions: a resting state (spec/70_reset_and_hazards.md R251), a call and its
return, stored bytes that are fetched (spec/20_memory.md R54, R62), and a sprite drawn twice (spec/44_display.md R181).
-/
namespace Sys2Proof.Machine

/-! ### A jump to itself -/

/-- A step on a jump to its own address is the tick alone (R251). -/
theorem step_of_rest {s : State} {op : Word} {nnn : Addr12} (hn : s.fault = none) (hw : s.fetch = some op)
    (hd : decode op = some (.jp nnn)) (hrest : nnn.toNat = s.pc.toNat) : step s = .next s.tick := by
  have htarget : zextAddr nnn = s.pc := BitVec.eq_of_toNat_eq ((zextAddr_toNat nnn).trans hrest)
  have he : exec (.jp nnn) s = .next s := by
    rw [exec, execJp, htarget]
    rfl
  exact step_of_exec_ok hn hw hd he hn

theorem FrameBut.trans {W : Part → Prop} {s t u : State} (hst : FrameBut W s t) (htu : FrameBut W t u) :
    FrameBut W s u := by
  intro p hp
  have h1 := hst p hp
  have h2 := htu p hp
  cases p <;> exact Eq.trans h2 h1

theorem run_succ_of_step {M : Host.Core} {s t : M.State} (k : Nat) (h : M.step s = .next t) :
    M.run (k + 1) s = M.run k t := by
  rw [Host.Core.run, h]

/-! ### A sprite drawn twice -/

theorem Display.ext_of_pixel {d e : Display} (h : ∀ px py, Display.pixel d px py = Display.pixel e px py) : d = e := by
  refine Vector.ext fun k hk => ?_
  have hpixel := h ⟨k % 64, Nat.mod_lt k (by decide)⟩ ⟨k / 64, by omega⟩
  simpa only [Display.pixel, Nat.div_add_mod'] using hpixel

theorem flagByte_eq_one_iff (b : Bool) : flagByte b = 1 ↔ b = true := by
  cases b <;> decide

theorem vf_drawn_eq_one_iff {x y n : Fin 16} {s : State} : (drawn x y n s).reg Reg.vf = 1 ↔
    ∃ px py, spriteAt s.mem s.i (s.reg x) (s.reg y) n.val px py = true ∧ Display.pixel s.fb px py = true := by
  rw [vf_drawn, flagByte_eq_one_iff]
  exact (blit_spec s.mem s.i (s.reg x) (s.reg y) n.val s.fb).2

/-! ### The obligations -/

/-- Settles O47, by induction on the number of steps: each is the tick (`step_of_rest`), which keeps the machine
resting. -/
theorem restingStateOnlyTicks : Obligations.RestingStateOnlyTicks := by
  intro s op nnn k hn hw hd hrest
  induction k generalizing s with
  | zero => exact ⟨s, rfl, rfl, rfl, frameBut_refl _ s⟩
  | succ k ih =>
    obtain ⟨t, hrun, hdt, hst, hframe⟩ := ih s.tick hn hw hrest
    refine ⟨t, (run_succ_of_step k (step_of_rest hn hw hd hrest)).trans hrun, ?delay, ?sound,
      (frameBut_tick s).trans hframe⟩
    case delay => rw [hdt, State.tick_dt, tickDown_toNat, Nat.sub_sub, Nat.add_comm]
    case sound => rw [hst, State.tick_st, tickDown_toNat, Nat.sub_sub, Nat.add_comm]

/-- Settles O17: the return pops the entry the call pushed, which is the call's own address. -/
theorem callThenReturnResumes : Obligations.CallThenReturnResumes := by
  intro nnn s hsp
  refine ⟨_, exec_call_of_lt nnn s hsp, fun u husp hustack => ?_⟩
  have husp' : u.sp.val = s.sp.val + 1 := congrArg Fin.val husp
  have htop : u.stackAt ⟨u.sp.val - 1, by omega⟩ = s.pc := by
    have hindex : (⟨u.sp.val - 1, by omega⟩ : Fin 16) = ⟨s.sp.val, hsp⟩ := Fin.ext (by simp; omega)
    rw [hindex, State.stackAt_congr hustack]
    exact (State.stackAt_jumpTo _ _ _).trans (stackAt_push hsp (State.push_of_lt s.pc hsp))
  refine ⟨_, exec_ret_of_pos u (by omega), ?resumes, ?depth⟩
  case resumes => rw [State.jumpTo_pc, htop]
  case depth => exact Fin.ext (by show u.sp.val - 1 = s.sp.val; omega)

/-- Settles O31: the two bytes at I are V0 and V1 (`read_storedRegs_dataAddr`). -/
theorem storedInstructionIsFetchedNext : Obligations.StoredInstructionIsFetchedNext := by
  intro x s hx hlast
  refine ⟨_, if_pos ((rangeExists_succ s.i x.val).mpr hlast), State.fetch_eq_some.mpr ⟨?inside, ?word⟩⟩
  case inside =>
    show s.i.toNat ≤ 0xFFE
    simp only [dataAddr] at hlast
    omega
  case word =>
    exact congrArg₂ wordOfBytes (read_storedRegs_dataAddr s (k := 0) (Fin.zero_le x))
      (read_storedRegs_dataAddr s (k := 1) hx)

/-- Settles O39: the second draw XORs the same sprite bits again, so each pixel is as before the first (`pixel_drawn`), and
it collides where a sprite bit found a pixel that the first draw had set. -/
theorem drawTwiceRestoresDisplay : Obligations.DrawTwiceRestoresDisplay := by
  intro x y n s h
  refine ⟨_, _, exec_drw_of_range h, exec_drw_of_range (s := { drawn x y n s with v := s.v }) h, ?restored, ?collision⟩
  case restored =>
    refine Display.ext_of_pixel fun px py => ?_
    rw [pixel_drawn]
    show (Display.pixel (drawn x y n s).fb px py ^^ spriteAt s.mem s.i (s.reg x) (s.reg y) n.val px py) = _
    rw [pixel_drawn, Bool.xor_assoc, Bool.xor_self, Bool.xor_false]
  case collision =>
    refine vf_drawn_eq_one_iff.trans (exists_congr fun px => exists_congr fun py => and_congr_right fun hbit => ?_)
    have hbit : spriteAt s.mem s.i (s.reg x) (s.reg y) n.val px py = true := hbit
    show Display.pixel (drawn x y n s).fb px py = true ↔ _
    rw [pixel_drawn, hbit, Bool.xor_true, Bool.not_eq_true']

end Sys2Proof.Machine
end

section
/-!
PROOFS. Two states that agree in every part are equal, CXNN, and the host's two writes (spec/10_state.md,
spec/43_random_timer_key.md R160, spec/60_exceptions.md R217, R218).
-/
namespace Sys2Proof.Machine

/-- Settles O51: each field of the state is read by its parts; memory by `Memory.ext_of_wf`, the display by
`Display.ext_of_pixel`. -/
theorem partsDetermineState : Obligations.PartsDetermineState := by
  intro s t hs ht h
  cases s
  cases t
  rw [State.mk.injEq]
  exact ⟨Vector.ext fun k hk => h (.reg ⟨k, hk⟩), h .i, h .pc, h .sp, Vector.ext fun k hk => h (.stack ⟨k, hk⟩), h .dt,
    h .st, Display.ext_of_pixel fun px py => h (.pixel px py), Vector.ext fun k hk => h (.key ⟨k, hk⟩), h .rf, h .fault,
    Memory.ext_of_wf ht hs fun a => h (.byte a), h .draws⟩

/-- Settles O32: VX is a conjunction with NN, bit by bit and as a number; what else changes is `frameBut_rnd`. -/
theorem randomByteIsMasked : Obligations.RandomByteIsMasked := by
  intro x nn s
  have hvx : (State.advance (s.setReg x (Config.rnd s.draws &&& nn))).reg x = Config.rnd s.draws &&& nn := by
    rw [State.reg_advance, State.reg_setReg_self]
  refine ⟨by simp [decode], _, rfl, hvx, fun k hk => ?bits, ?bound, rfl, rfl, frameBut_rnd x nn s⟩
  case bits => exact (congrArg (BitVec.getLsbD · k) hvx).trans (by rw [BitVec.getLsbD_and, hk, Bool.and_false])
  case bound => exact (congrArg BitVec.toNat hvx).trans_le ((BitVec.toNat_and _ _).trans_le Nat.and_le_right)

theorem frameBut_hostSetKeys (keys : Keys) (s : State) :
    FrameBut (fun p => ∃ k, p = .key k) s (hostSetKeys keys s) := by
  intro p hp
  cases p with
  | key k => exact absurd ⟨k, rfl⟩ hp
  | _ => rfl

theorem frameBut_hostClearRedraw (s : State) : FrameBut (fun p => p = .rf) s (hostClearRedraw s) := by
  intro p hp
  cases p with
  | rf => exact absurd rfl hp
  | _ => rfl

/-- Settles O55: each write replaces one field of the state. -/
theorem hostWritesKeysAndRedraw : Obligations.HostWritesKeysAndRedraw := fun keys s =>
  ⟨⟨fun _ => rfl, frameBut_hostSetKeys keys s⟩, rfl, frameBut_hostClearRedraw s⟩

end Sys2Proof.Machine
end
